-- ==== Sys2Proof/Word.lean ====
section
/-! DEFINITION. The words of the block: bytes, hex or decimal digits, and the 96-bit tag word
(00_scope.md R10, R11). Every value is unsigned. -/

namespace Sys2Proof

/-- A character code or a byte of the tag (8 bits). -/
abbrev Byte := BitVec 8

/-- A hex digit's value or a decimal digit lane (4 bits). -/
abbrev Nibble := BitVec 4

/-- The tag word `T` (00_scope.md R10): 96 bits, stream bit `i` is `T[95-i]`. -/
abbrev TagWord := BitVec 96

end Sys2Proof
end

