-- ==== Sys2Proof/Config.lean ====
section
/-! DEFINITION. The configuration constants (00_scope.md R8, 10_state.md R24), the records at the
two ports (10_state.md R25, R26), and the free values: constants without a body for what the spec
leaves unspecified. -/

namespace Sys2Proof

/-- The two legal values of the partition mask `PMASK` (00_scope.md R8, 10_state.md R24). Any other
value is outside the spec and cannot be written here (93_implementation_defined.md U6). -/
inductive PMask where
  | x1C
  | x18
deriving DecidableEq, Repr, Inhabited

/-- `SERIAL_MODE` (00_scope.md R8): which serial number a decode returns (44_serial_number.md R138). -/
inductive SerialMode where
  | parity
  | corrected
deriving DecidableEq, Repr, Inhabited

/-- The configuration record of 00_scope.md R8: fixed when the block is built. -/
structure Config where
  pmask : PMask
  serialMode : SerialMode
deriving DecidableEq, Repr, Inhabited

/-- The column "this hardware" of 00_scope.md R8. -/
def Config.thisHardware : Config := { pmask := .x1C, serialMode := .parity }

/-- A request at the port (10_state.md R25): the length of the string, saturated at 255, and the 24
character lanes. -/
structure Request where
  len : BitVec 8
  ch : Vector Byte 24
deriving DecidableEq, Repr, Inhabited

/-- A response at the port (10_state.md R26), field by field at the port's widths (00_scope.md R9). -/
structure Response where
  status : BitVec 2
  errValue : Byte
  companyPrefix : BitVec 40
  itemReference : BitVec 24
  serial : BitVec 38
  serialDec : Vector Nibble 12
  serialNdig : BitVec 4
  serialMode : BitVec 1
  dbgFilter : Byte
  dbgPartition : Byte
  dbgCpw : BitVec 6
  dbgIrw : BitVec 5
deriving DecidableEq, Repr, Inhabited

/-- FREE VALUE. What `RESP` holds when the spec says "unspecified ... a model draws any value"
(10_state.md R29, 70_reset_and_hazards.md R170), one for each draw. DESIGN CHOICE, log 1 and 3. -/
opaque Config.freeResponse : Nat → Response

/-- FREE VALUE. The string the block samples when the host changes a request while presenting it:
"that of some string the host may not have intended" (70_reset_and_hazards.md R173). DESIGN CHOICE,
log 9. -/
opaque Config.freeRequest : Nat → Request

/-- FREE VALUE. `RESP_VALID` at power-up, before the first reset (70_reset_and_hazards.md R172).
DESIGN CHOICE, log 26. -/
opaque Config.powerUpRespValid : Bool

end Sys2Proof
end

