-- ==== Sys2Proof/Syntax.lean ====
section
/-! DEFINITION. The syntax: one constructor of `Instr` for each row of spec/opcode_table.json. An
instruction is one decode of one presented request (30_encoding.md R52; log 17). -/

namespace Sys2Proof

/-- The seven formats of 30_encoding.md R50, named by their masked partition value. -/
inductive Format where
  | p0 | p4 | p8 | p12 | p16 | p20 | p24
deriving DecidableEq, Repr, Inhabited

/-- What one presented request asks the block to do. The operands of a format are its fields
(30_encoding.md R49, R50) at their exact widths; the operands of the error rows are what the row of
the table leaves variable. -/
inductive Instr where
  /-- SGTIN96.P0, 43_field_extraction.md R110 -/
  | p0 (filter : BitVec 3) (cp : BitVec 40) (ir : BitVec 4) (ser : BitVec 38)
  /-- SGTIN96.P4, R111 -/
  | p4 (filter : BitVec 3) (cp : BitVec 37) (ir : BitVec 7) (ser : BitVec 38)
  /-- SGTIN96.P8, R112 -/
  | p8 (filter : BitVec 3) (cp : BitVec 34) (ir : BitVec 10) (ser : BitVec 38)
  /-- SGTIN96.P12, R113 -/
  | p12 (filter : BitVec 3) (cp : BitVec 30) (ir : BitVec 14) (ser : BitVec 38)
  /-- SGTIN96.P16, R114 -/
  | p16 (filter : BitVec 3) (cp : BitVec 27) (ir : BitVec 17) (ser : BitVec 38)
  /-- SGTIN96.P20, R115 -/
  | p20 (filter : BitVec 3) (cp : BitVec 24) (ir : BitVec 20) (ser : BitVec 38)
  /-- SGTIN96.P24, R116 -/
  | p24 (filter : BitVec 3) (cp : BitVec 20) (ir : BitVec 24) (ser : BitVec 38)
  /-- SGTIN96.INVALID_PARTITION, R117: the filter and the 82 ignored bits 14 to 95 -/
  | invalidPartition (filter : BitVec 3) (rest : BitVec 82)
  /-- SGTIN96.UNSUPPORTED_HEADER, 42_header_filter_partition.md R80: the header byte and the 88
  ignored bits -/
  | unsupportedHeader (header : Byte) (rest : BitVec 88)
  /-- SGTIN96.MALFORMED_TAG, 41_surface_validation.md R70, R71: no word is formed, so the operand is
  the request itself -/
  | malformedTag (req : Request)
deriving DecidableEq, Repr

end Sys2Proof
end

