-- ==== Sys2Proof/Decode.lean ====
section
/-! DEFINITION. The decoder, total on every request: text form (30_encoding.md R45 to R47), the read
primitive (20_memory.md R33), the partition table (42_header_filter_partition.md R86) and the choice
of the row (R52). After it, the encoder, written from the layouts of R49 and R50. -/

namespace Sys2Proof

/-! ### Constants of 00_scope.md R7 -/

/-- `HEADER_SGTIN96` -/
def headerSgtin96 : Byte := 0x30#8

/-- `FMASK` -/
def filterMask : Byte := 0xE0#8

/-- The mask that `PMASK` names (10_state.md R24). -/
def PMask.mask : PMask → Byte
  | .x1C => 0x1C#8
  | .x18 => 0x18#8

/-! ### The text form -/

/-- 30_encoding.md R45. -/
def isHex (c : Byte) : Bool :=
  (0x30 ≤ c.toNat && c.toNat ≤ 0x39) || (0x41 ≤ c.toNat && c.toNat ≤ 0x46) ||
    (0x61 ≤ c.toNat && c.toNat ≤ 0x66)

/-- 30_encoding.md R46. Defined when `isHex c`; elsewhere a value that nothing reads, since Step 1
has removed every such string (log 22). -/
def hexval (c : Byte) : Nibble :=
  if c.toNat ≤ 0x39 then BitVec.ofNat 4 (c.toNat - 0x30)
  else if c.toNat ≤ 0x46 then BitVec.ofNat 4 (c.toNat - 0x41 + 10)
  else BitVec.ofNat 4 (c.toNat - 0x61 + 10)

/-- Step 1: length (41_surface_validation.md R70), then characters (R71). -/
def Request.isTag (r : Request) : Bool :=
  r.len == 24#8 && r.ch.toList.all isHex

/-- Step 2: the digit values `nib[0..23]` (10_state.md R21). -/
def nibbles (r : Request) : Vector Nibble 24 :=
  Vector.ofFn fun i => hexval r.ch[i.val]

/-- Step 2: the bytes `B[0..11]` (41_surface_validation.md R73, 30_encoding.md R47). -/
def tagBytes (r : Request) : Vector Byte 12 :=
  Vector.ofFn fun i =>
    (nibbles r)[2 * i.val].setWidth 8 * 16#8 + (nibbles r)[2 * i.val + 1].setWidth 8

/-- The tag word `T = B[0] ++ ... ++ B[11]` (30_encoding.md R47, 00_scope.md R10). -/
def tagWord (r : Request) : TagWord :=
  let B := tagBytes r
  B[0] ++ B[1] ++ B[2] ++ B[3] ++ B[4] ++ B[5] ++ B[6] ++ B[7] ++ B[8] ++ B[9] ++ B[10] ++ B[11]

/-! ### The read primitive -/

/-- `ReadBits(off, w)` in its shift-and-mask form (20_memory.md R33). Its precondition is discharged
at every use (R35). -/
def readBits (t : TagWord) (off w : Nat) (_inside : off + w ≤ 96 := by omega) : BitVec w :=
  t.extractLsb' (96 - off - w) w

/-- `B[k] = MemRead(k, 1) = ReadBits(8k, 8)` (00_scope.md R11). -/
def byteAt (t : TagWord) (k : Nat) (_inside : k < 12 := by omega) : Byte :=
  readBits t (8 * k) 8

/-! ### The partition table -/

/-- The masked partition value of a format (42_header_filter_partition.md R86). -/
def Format.key : Format → Byte
  | .p0 => 0
  | .p4 => 4
  | .p8 => 8
  | .p12 => 12
  | .p16 => 16
  | .p20 => 20
  | .p24 => 24

/-- Company-prefix width, column `cpw` of 42_header_filter_partition.md R86. -/
def Format.cpw : Format → Nat
  | .p0 => 40
  | .p4 => 37
  | .p8 => 34
  | .p12 => 30
  | .p16 => 27
  | .p20 => 24
  | .p24 => 20

/-- Item-reference width, `irw = 44 - cpw` (42_header_filter_partition.md R88). -/
def Format.irw (f : Format) : Nat := 44 - f.cpw

/-- The lookup `PTABLE[partition]` of 42_header_filter_partition.md R87; `none` is `InvalidPartition`. -/
def ptable (partition : Byte) : Option Format :=
  if partition = 0 then some .p0
  else if partition = 4 then some .p4
  else if partition = 8 then some .p8
  else if partition = 12 then some .p12
  else if partition = 16 then some .p16
  else if partition = 20 then some .p20
  else if partition = 24 then some .p24
  else none

/-! ### The choice of the row -/

/-- The fields of a format: the cursor stands at 14 before the company prefix and advances by its
width (43_field_extraction.md R101 to R103, 10_state.md R22); the serial field is bits 58 to 95. -/
def decodeFormat (t : TagWord) : Format → Instr
  | .p0 => .p0 (readBits t 8 3) (readBits t 14 40) (readBits t (14 + 40) 4) (readBits t 58 38)
  | .p4 => .p4 (readBits t 8 3) (readBits t 14 37) (readBits t (14 + 37) 7) (readBits t 58 38)
  | .p8 => .p8 (readBits t 8 3) (readBits t 14 34) (readBits t (14 + 34) 10) (readBits t 58 38)
  | .p12 => .p12 (readBits t 8 3) (readBits t 14 30) (readBits t (14 + 30) 14) (readBits t 58 38)
  | .p16 => .p16 (readBits t 8 3) (readBits t 14 27) (readBits t (14 + 27) 17) (readBits t 58 38)
  | .p20 => .p20 (readBits t 8 3) (readBits t 14 24) (readBits t (14 + 24) 20) (readBits t 58 38)
  | .p24 => .p24 (readBits t 8 3) (readBits t 14 20) (readBits t (14 + 20) 24) (readBits t 58 38)

/-- Steps 3 to 5 on a formed word, in decoding order (30_encoding.md R52, 60_exceptions.md R155):
header, then partition, then format. -/
def decodeTag (c : Config) (t : TagWord) : Instr :=
  if byteAt t 0 ≠ headerSgtin96 then .unsupportedHeader (byteAt t 0) (readBits t 8 88)
  else
    match ptable (byteAt t 1 &&& c.pmask.mask) with
    | none => .invalidPartition (readBits t 8 3) (readBits t 14 82)
    | some f => decodeFormat t f

/-- The instruction a presented request is: Step 1 first (30_encoding.md R52, item 1). -/
def decode (c : Config) (r : Request) : Instr :=
  if r.isTag then decodeTag c (tagWord r) else .malformedTag r

/-! ### The encoder -/

/-- The upper-case character of a digit value (30_encoding.md R46, R48). -/
def hexDigit (n : Nibble) : Byte :=
  if n.toNat < 10 then BitVec.ofNat 8 (0x30 + n.toNat) else BitVec.ofNat 8 (0x41 + (n.toNat - 10))

/-- The 24-character text of a tag word (30_encoding.md R45, R47, R48). -/
def textOf (t : TagWord) : Request where
  len := 24#8
  ch := Vector.ofFn fun i => hexDigit (readBits t (4 * i.val) 4)

/-- The request that presents a string of 8-bit character codes (10_state.md R25): the length
saturates at 255; the lanes past the end of the string, which the block ignores, are set to 0 here
(log 16). -/
def Request.ofCodes (codes : List Byte) : Request where
  len := BitVec.ofNat 8 (min codes.length 255)
  ch := Vector.ofFn fun i => codes.getD i.val 0

/-- The words of an instruction, from the patterns of 30_encoding.md R50 and of the table's rows. -/
def encode : Instr → Request
  | .p0 f cp ir ser => textOf (0x30#8 ++ f ++ 0b000#3 ++ cp ++ ir ++ ser)
  | .p4 f cp ir ser => textOf (0x30#8 ++ f ++ 0b001#3 ++ cp ++ ir ++ ser)
  | .p8 f cp ir ser => textOf (0x30#8 ++ f ++ 0b010#3 ++ cp ++ ir ++ ser)
  | .p12 f cp ir ser => textOf (0x30#8 ++ f ++ 0b011#3 ++ cp ++ ir ++ ser)
  | .p16 f cp ir ser => textOf (0x30#8 ++ f ++ 0b100#3 ++ cp ++ ir ++ ser)
  | .p20 f cp ir ser => textOf (0x30#8 ++ f ++ 0b101#3 ++ cp ++ ir ++ ser)
  | .p24 f cp ir ser => textOf (0x30#8 ++ f ++ 0b110#3 ++ cp ++ ir ++ ser)
  | .invalidPartition f rest => textOf (0x30#8 ++ f ++ 0b111#3 ++ rest)
  | .unsupportedHeader h rest => textOf (h ++ rest)
  | .malformedTag req => req

/-! ### The words of the opcode table -/

/-- The request that presents a row of spec/opcode_table.json whose bits are `w`, numbered as the
table's match words are (bit 0 is `T[0]`, the last stream bit). A row to which the table gives no
bits forms no word: it is presented as the empty string (log 14). -/
def tableRequest (nbits w : Nat) : Request :=
  if nbits = 0 then Request.ofCodes [] else textOf (BitVec.ofNat 96 w)

/-- What this hardware's decoder reads from a row of the table. It refuses no request: every request
is some row (40_decode_top.md R69). -/
def decodeTableWord (nbits w : Nat) : Option Instr :=
  some (decode Config.thisHardware (tableRequest nbits w))

end Sys2Proof
end

