-- ==== Sys2Proof/Machine/State.lean ====
section
/-! DEFINITION. The state of the block and of its host, as plain data; the error kinds and results of
a decode; faults and refusals; the state after reset. -/

namespace Sys2Proof.Machine

/-- The three classified errors of a decode (60_exceptions.md R150) with their payloads (R152). -/
inductive DecodeError where
  | malformedTag
  | unsupportedHeader (value : Byte)
  | invalidPartition (value : Byte)
deriving DecidableEq, Repr

/-- The success result (40_decode_top.md R61): the serial number as the character codes of its
decimal digits (44_serial_number.md R139). -/
structure DecodedIdentity where
  companyPrefix : BitVec 40
  itemReference : BitVec 24
  serialNumber : List Byte
deriving DecidableEq, Repr

/-- What a host can do: "SUBMIT, COLLECT and reset" (40_decode_top.md R68). -/
inductive HostOp where
  /-- Drive the reset pin (70_reset_and_hazards.md R170). -/
  | reset
  /-- Present a request (40_decode_top.md R66). -/
  | submit (req : Request)
  /-- Take the response (40_decode_top.md R67). -/
  | collect
deriving DecidableEq, Repr

/-- There is no fault: "The block has no fault, no stuck state and no hang of its own"
(60_exceptions.md R159). Nothing raises one (log 25). -/
inductive Fault where
deriving DecidableEq, Repr

/-- The reasons a step has no meaning. -/
inductive Refusal where
  /-- Raised by an arm of `exec` whose instruction has no meaning yet. Safe: the machine stops. -/
  | notModelled (mnemonic : String)
  /-- Raised by `step` on a COLLECT while no response is held, a step "the host has no such"
  (93_implementation_defined.md U11). Safe: the machine stops where the spec gives no step (log 10). -/
  | collectNotEnabled
deriving DecidableEq, Repr

/-- The state. `respValid` and `resp` are the block's (10_state.md R27); `config` holds its constants
(R24); `presented` is the request port (R25, 40_decode_top.md R66); `hostOps` and `collected` are the
host's (70_reset_and_hazards.md R178, 40_decode_top.md R67); `draws` is the model's own. -/
structure State where
  /-- `PMASK`, `SERIAL_MODE`: constant, unchanged by reset. -/
  config : Config
  /-- `RESP_VALID`. -/
  respValid : Bool
  /-- `RESP`. -/
  resp : Response
  /-- The request the host is presenting and the block has not accepted. -/
  presented : Option Request
  /-- The operations the host still has to perform, next one first. -/
  hostOps : List HostOp
  /-- The copies of responses the host has received, oldest first. -/
  collected : List Response
  /-- How many free values have been drawn (log 2). -/
  draws : Nat
deriving DecidableEq, Repr

/-- Before the first reset `RESP_VALID` and `RESP` are unspecified (70_reset_and_hazards.md R172;
log 26). -/
def State.powerUp : State where
  config := Config.thisHardware
  respValid := Config.powerUpRespValid
  resp := Config.freeResponse 0
  presented := none
  hostOps := []
  collected := []
  draws := 1

/-- The state right after reset (10_state.md R29, 70_reset_and_hazards.md R170): `RESP_VALID = 0`;
`RESP` is unspecified, a draw (DESIGN CHOICE, log 1); no host operation is placed (log 5). -/
def State.reset : State where
  config := Config.thisHardware
  respValid := false
  resp := Config.freeResponse 0
  presented := none
  hostOps := []
  collected := []
  draws := 1

end Sys2Proof.Machine
end

