-- ==== Sys2Proof/Machine/Operands.lean ====
section
/-! DEFINITION. What Steps 6 to 8 make of an instruction's operands: the masked values of byte 1, the
serial number in both modes (44_serial_number.md R130 to R138) and its decimal digits (R139 to R141). -/

namespace Sys2Proof.Machine

/-- The filter value, the three bits left in place: a multiple of 32 (42_header_filter_partition.md
R82, 00_scope.md R12). -/
def filterValue (filter : BitVec 3) : Byte := filter ++ 0#5

/-! ### Step 8 -/

/-- Bytes 7 to 11 of the tag, cut from its last 40 bits: the last two bits of the item reference and
the 38 bits of the standard serial field (20_memory.md R38). -/
def tailBytes (x : BitVec 40) : Vector Byte 5 :=
  Vector.ofFn fun i => x.extractLsb' (8 * (4 - i.val)) 8

/-- The substitution `S[0] <- B[0] | 0x3F` on the scratch copy of bytes 7 to 11
(44_serial_number.md R131, R132). -/
def substituted (header : Byte) (tail : Vector Byte 5) : Vector Byte 5 :=
  tail.set 0 (header ||| 0x3F#8)

/-- The reversal `Rv[i] <- S[4 - i]` (44_serial_number.md R133). -/
def reversed (S : Vector Byte 5) : Vector Byte 5 :=
  Vector.ofFn fun i => S[4 - i.val]

/-- The reinterpretation of `Rv[0..3]`, least significant byte first (44_serial_number.md R134). -/
def reinterpreted (Rv : Vector Byte 5) : BitVec 32 :=
  BitVec.ofNat 32
    (Rv[0].toNat + Rv[1].toNat * 2 ^ 8 + Rv[2].toNat * 2 ^ 16 + Rv[3].toNat * 2 ^ 24)

/-- The as-implemented serial number (44_serial_number.md R131 to R134). -/
def ser32 (header : Byte) (tail : Vector Byte 5) : BitVec 32 :=
  reinterpreted (reversed (substituted header tail))

/-- The selection of 44_serial_number.md R138. -/
def serialOf (mode : SerialMode) (s32 : BitVec 32) (s38 : BitVec 38) : BitVec 38 :=
  match mode with
  | .parity => s32.setWidth 38
  | .corrected => s38

/-! ### The decimal rendering -/

/-- The least `j >= k` with `n < 10^j`, looking at most `fuel` further. -/
def digitsFrom : (fuel k n : Nat) → Nat
  | 0, k, _ => k
  | fuel + 1, k, n => if n < 10 ^ k then k else digitsFrom fuel (k + 1) n

/-- `k`, "the least integer >= 1 with n < 10^k" (44_serial_number.md R141); at most 12 lanes. -/
def digitCount (n : Nat) : Nat := digitsFrom 11 1 n

/-- `d[i] = floor(n / 10^i) mod 10` (44_serial_number.md R141). -/
def decimalDigit (n i : Nat) : Nat := n / 10 ^ i % 10

/-- The digit lanes, most significant digit in lane 0, unused lanes 0 (44_serial_number.md R140). -/
def decimalLanes (n : Nat) : Vector Nibble 12 :=
  Vector.ofFn fun i =>
    if i.val < digitCount n then BitVec.ofNat 4 (decimalDigit n (digitCount n - 1 - i.val)) else 0#4

/-- The decimal string: the character codes `0x30 + d`, most significant digit first
(44_serial_number.md R139). -/
def decimalString (n : Nat) : List Byte :=
  (List.range (digitCount n)).map fun i => BitVec.ofNat 8 (0x30 + decimalDigit n (digitCount n - 1 - i))

end Sys2Proof.Machine
end

