-- ==== Sys2Proof/Machine/Flags.lean ====
section
/-! DEFINITION. The block has no flags (10_state.md R23). Its condition-like values are here: the
filter check, the status code, the error payload and the mode bit of a response. -/

namespace Sys2Proof.Machine

/-- `filter_ok` (42_header_filter_partition.md R83): the named no-op validation of Step 4, on the
masked filter value. -/
def filterOk (filter : Byte) : Bool :=
  [0#8, 32#8, 64#8, 96#8, 128#8, 160#8, 192#8, 224#8].contains filter

/-- The status code of success (60_exceptions.md R151). -/
def statusOk : BitVec 2 := 0#2

/-- The status codes of the errors (60_exceptions.md R151). -/
def errorStatus : DecodeError → BitVec 2
  | .malformedTag => 1#2
  | .unsupportedHeader _ => 2#2
  | .invalidPartition _ => 3#2

/-- `err_value` (60_exceptions.md R152). -/
def errorPayload : DecodeError → Byte
  | .malformedTag => 0#8
  | .unsupportedHeader v => v
  | .invalidPartition v => v

/-- The `serial_mode` bit: 0 = `parity`, 1 = `corrected` (10_state.md R24, R26). -/
def serialModeBit : SerialMode → BitVec 1
  | .parity => 0#1
  | .corrected => 1#1

end Sys2Proof.Machine
end

