-- ==== Sys2Proof/Machine/Ops.lean ====
section
/-! DEFINITION. The named operations every meaning and the step are made of: the two response images
(10_state.md R26), writing the response register (40_decode_top.md R66), raising an error
(60_exceptions.md R154), and the host's three operations (R66, R67, 70_reset_and_hazards.md R170). -/

namespace Sys2Proof.Machine

/-! ### Images -/

/-- The column `OK` of 10_state.md R26. -/
def okImage (c : Config) (fmt : Format) (filter : Byte) (cp : BitVec 40) (ir : BitVec 24)
    (serial : BitVec 38) : Response where
  status := statusOk
  errValue := 0
  companyPrefix := cp
  itemReference := ir
  serial := serial
  serialDec := decimalLanes serial.toNat
  serialNdig := BitVec.ofNat 4 (digitCount serial.toNat)
  serialMode := serialModeBit c.serialMode
  dbgFilter := filter
  dbgPartition := fmt.key
  dbgCpw := BitVec.ofNat 6 fmt.cpw
  dbgIrw := BitVec.ofNat 5 fmt.irw

/-- The error columns of 10_state.md R26: status, payload and mode; every other field zero. -/
def errorImage (c : Config) (e : DecodeError) : Response where
  status := errorStatus e
  errValue := errorPayload e
  companyPrefix := 0
  itemReference := 0
  serial := 0
  serialDec := Vector.replicate 12 0#4
  serialNdig := 0
  serialMode := serialModeBit c.serialMode
  dbgFilter := 0
  dbgPartition := 0
  dbgCpw := 0
  dbgIrw := 0

/-! ### The response register -/

/-- `RESP <- r`, `RESP_VALID <- 1`; the request is accepted, so it is no longer presented. -/
def putResponse (r : Response) (s : State) : State :=
  { s with resp := r, respValid := true, presented := none }

/-- SUBMIT's effect, one atomic step (40_decode_top.md R66). While a response is held it is not
enabled: the request waits and nothing changes. -/
def respond (r : Response) (s : State) : Host.Outcome State Fault Refusal :=
  if s.respValid then .next s else .next (putResponse r s)

/-- `raise E(info)` (60_exceptions.md R154), the one way an error is taken: the decode ends, nothing
is saved, and the error is delivered exactly as a success is. There is nothing to return from
(R157): the response is collected like any other. -/
def raiseError (e : DecodeError) (s : State) : Host.Outcome State Fault Refusal :=
  respond (errorImage s.config e) s

/-- The end of a successful decode in format `fmt` (40_decode_top.md R60, Step 8): `cp` and `ir`
zero-extended to their ports (43_field_extraction.md R108), `ser` the 38-bit serial field. Bytes 7 to
11, of which Step 8 takes its scratch copy, are the last two bits of `ir` and `ser`
(20_memory.md R38); the header byte is 48 on every decode that reaches Step 8 (44_serial_number.md
R132). -/
def completeDecode (fmt : Format) (filter : BitVec 3) (cp : BitVec 40) (ir : BitVec 24)
    (ser : BitVec 38) (s : State) : Host.Outcome State Fault Refusal :=
  let tail := tailBytes (ir.setWidth 2 ++ ser)
  let serial := serialOf s.config.serialMode (ser32 headerSgtin96 tail) ser
  respond (okImage s.config fmt (filterValue filter) cp ir serial) s

/-! ### The host's operations -/

/-- The host goes on to its further operations `rest`. -/
def withHostOps (rest : List HostOp) (s : State) : State := { s with hostOps := rest }

/-- The host presents `req`. Presenting again what is already presented holds it stable; presenting
something else changes the lanes meanwhile, and then the string the block will sample is some string:
a free value (70_reset_and_hazards.md R173; DESIGN CHOICE, log 9). -/
def present (req : Request) (s : State) : State :=
  match s.presented with
  | none => { s with presented := some req }
  | some old =>
    if req = old then s
    else { s with presented := some (Config.freeRequest s.draws), draws := s.draws + 1 }

/-- COLLECT (40_decode_top.md R67): the host receives a copy of `RESP`, `RESP_VALID <- 0`, `RESP` is
left as it is (log 4). Not enabled while no response is held (log 10). -/
def collect (s : State) : Host.Outcome State Fault Refusal :=
  if s.respValid then .next { s with respValid := false, collected := s.collected ++ [s.resp] }
  else .refused .collectNotEnabled

/-- Reset (70_reset_and_hazards.md R170): `RESP_VALID <- 0`, `RESP` unspecified (a fresh draw, log 3);
a request not yet accepted is not accepted. -/
def applyReset (s : State) : State :=
  { s with
    respValid := false
    resp := Config.freeResponse s.draws
    presented := none
    draws := s.draws + 1 }

/-! ### Reading a response -/

/-- What the host reads from a response (70_reset_and_hazards.md R175): the result fields only when
`status = 0`, the payload only when `status` is 2 or 3. The serial number's string is lanes 0 to
`k-1` (44_serial_number.md R140) as character codes (R139). -/
def readResponse (r : Response) : Except DecodeError DecodedIdentity :=
  if r.status = statusOk then
    .ok { companyPrefix := r.companyPrefix
          itemReference := r.itemReference
          serialNumber := (r.serialDec.toList.take r.serialNdig.toNat).map fun d => 0x30#8 + d.setWidth 8 }
  else if r.status = 1#2 then .error .malformedTag
  else if r.status = 2#2 then .error (.unsupportedHeader r.errValue)
  else .error (.invalidPartition r.errValue)

end Sys2Proof.Machine
end

