-- ==== Sys2Proof/Machine/Errors.lean ====
section
/-! DEFINITION. The meanings of the three error rows: each raises its error (60_exceptions.md R153).
No ignored bit reaches the response (R152). -/

namespace Sys2Proof.Machine

/-- Partition bits 111: `InvalidPartition(28)`, the masked value (43_field_extraction.md R117,
42_header_filter_partition.md R87, R89). -/
def execInvalidPartition (_filter : BitVec 3) (_rest : BitVec 82) (s : State) :
    Host.Outcome State Fault Refusal :=
  raiseError (.invalidPartition 28#8) s

/-- `UnsupportedHeader(B[0])`, the header byte unmasked (42_header_filter_partition.md R80, R81). -/
def execUnsupportedHeader (header : Byte) (_rest : BitVec 88) (s : State) :
    Host.Outcome State Fault Refusal :=
  raiseError (.unsupportedHeader header) s

/-- `MalformedTag`, without payload (41_surface_validation.md R70, R71). -/
def execMalformedTag (_req : Request) (s : State) : Host.Outcome State Fault Refusal :=
  raiseError .malformedTag s

end Sys2Proof.Machine
end

