-- ==== Sys2Proof/Machine/Formats.lean ====
section
/-! DEFINITION. The meanings of the seven formats (43_field_extraction.md R110 to R116): every field
zero-extended to its port (R108), then Step 8. -/

namespace Sys2Proof.Machine

/-- R110. -/
def execP0 (filter : BitVec 3) (cp : BitVec 40) (ir : BitVec 4) (ser : BitVec 38) (s : State) :
    Host.Outcome State Fault Refusal :=
  completeDecode .p0 filter cp (ir.setWidth 24) ser s

/-- R111. -/
def execP4 (filter : BitVec 3) (cp : BitVec 37) (ir : BitVec 7) (ser : BitVec 38) (s : State) :
    Host.Outcome State Fault Refusal :=
  completeDecode .p4 filter (cp.setWidth 40) (ir.setWidth 24) ser s

/-- R112. -/
def execP8 (filter : BitVec 3) (cp : BitVec 34) (ir : BitVec 10) (ser : BitVec 38) (s : State) :
    Host.Outcome State Fault Refusal :=
  completeDecode .p8 filter (cp.setWidth 40) (ir.setWidth 24) ser s

/-- R113. -/
def execP12 (filter : BitVec 3) (cp : BitVec 30) (ir : BitVec 14) (ser : BitVec 38) (s : State) :
    Host.Outcome State Fault Refusal :=
  completeDecode .p12 filter (cp.setWidth 40) (ir.setWidth 24) ser s

/-- R114. -/
def execP16 (filter : BitVec 3) (cp : BitVec 27) (ir : BitVec 17) (ser : BitVec 38) (s : State) :
    Host.Outcome State Fault Refusal :=
  completeDecode .p16 filter (cp.setWidth 40) (ir.setWidth 24) ser s

/-- R115. -/
def execP20 (filter : BitVec 3) (cp : BitVec 24) (ir : BitVec 20) (ser : BitVec 38) (s : State) :
    Host.Outcome State Fault Refusal :=
  completeDecode .p20 filter (cp.setWidth 40) (ir.setWidth 24) ser s

/-- R116. -/
def execP24 (filter : BitVec 3) (cp : BitVec 20) (ir : BitVec 24) (ser : BitVec 38) (s : State) :
    Host.Outcome State Fault Refusal :=
  completeDecode .p24 filter (cp.setWidth 40) ir ser s

end Sys2Proof.Machine
end

