-- ==== Sys2Proof/Machine/Dispatch.lean ====
section
/-! DEFINITION. One arm for each constructor of `Instr`. -/

namespace Sys2Proof.Machine

def exec (i : Instr) (s : State) : Host.Outcome State Fault Refusal :=
  match i with
  | .p0 filter cp ir ser => Sys2Proof.Machine.execP0 filter cp ir ser s
  | .p4 filter cp ir ser => Sys2Proof.Machine.execP4 filter cp ir ser s
  | .p8 filter cp ir ser => Sys2Proof.Machine.execP8 filter cp ir ser s
  | .p12 filter cp ir ser => Sys2Proof.Machine.execP12 filter cp ir ser s
  | .p16 filter cp ir ser => Sys2Proof.Machine.execP16 filter cp ir ser s
  | .p20 filter cp ir ser => Sys2Proof.Machine.execP20 filter cp ir ser s
  | .p24 filter cp ir ser => Sys2Proof.Machine.execP24 filter cp ir ser s
  | .invalidPartition filter rest => Sys2Proof.Machine.execInvalidPartition filter rest s
  | .unsupportedHeader header rest => Sys2Proof.Machine.execUnsupportedHeader header rest s
  | .malformedTag req => Sys2Proof.Machine.execMalformedTag req s

end Sys2Proof.Machine
end

