-- ==== Sys2Proof/Machine/Step.lean ====
section
/-! DEFINITION. One step: a reset, an acceptance of the presented request, or the host's next
operation. A SUBMIT that is enabled presents and is accepted in one step (40_decode_top.md R66). -/

namespace Sys2Proof.Machine

/-- The request at the port is decoded and run; with nothing at the port nothing happens. -/
def serve (s : State) : Host.Outcome State Fault Refusal :=
  match s.presented with
  | some req => exec (decode s.config req) s
  | none => .next s

/-- A request waits at the port and no response is held any more. -/
def ready (s : State) : Bool := s.presented.isSome && !s.respValid

/-- The host performs its next operation, or there is none: the run has ended and the block idles
(70_reset_and_hazards.md R178; log 11). -/
def hostStep (s : State) : Host.Outcome State Fault Refusal :=
  match s.hostOps with
  | [] => .next s
  | .reset :: rest => .next (applyReset (withHostOps rest s))
  | .submit req :: rest => serve (present req (withHostOps rest s))
  | .collect :: rest => collect (withHostOps rest s)

/-- One step. Reset acts "whenever it is applied" (70_reset_and_hazards.md R170), so it comes before
an acceptance (log 7); an acceptance comes before any other operation of the host. -/
def step (s : State) : Host.Outcome State Fault Refusal :=
  match s.hostOps with
  | .reset :: _ => hostStep s
  | _ => if ready s then serve s else hostStep s

/-- The state whose very next step decodes and runs the row's word: the host's next operation is the
SUBMIT of it, nothing waits at the port and no response is held (log 15). -/
def State.withFetchWord (s : State) (nbits w : Nat) : State :=
  { s with
    hostOps := .submit (tableRequest nbits w) :: s.hostOps
    presented := none
    respValid := false }

end Sys2Proof.Machine
end

