-- ==== Sys2Proof/Machine/Reference.lean ====
section
/-! DEFINITION. The eight steps of `decode` as 40_decode_top.md R60 writes them, on the bytes and the
bit sequence of the tag, with every signal of 10_state.md R21 by name. The claims compare the machine
with it. -/

namespace Sys2Proof.Machine

/-- The stream bits `tb[8k+j] = B[k][7-j]` (41_surface_validation.md R74), materialised from the
bytes. -/
def streamBits (B : Vector Byte 12) : Vector Bool 96 :=
  Vector.ofFn fun i => B[i.val / 8].getLsbD (7 - i.val % 8)

/-- `ReadBits(off, w)` as the weighted sum of stream bits (20_memory.md R33, 43_field_extraction.md
R100); a bit past the end, which no step reads (R35), counts as 0. -/
def readBitsSum (tb : Vector Bool 96) (off w : Nat) : Nat :=
  ((List.range w).map fun j => (tb.toList.getD (off + j) false).toNat * 2 ^ (w - 1 - j)).sum

/-- The signals of a decode that reached its end (10_state.md R21). `cur6` and `cur7` are the values of
the read cursor `cur` before Step 6 and before Step 7, `curEnd` where it stands after Step 7 (R22). -/
structure Signals where
  nib : Vector Nibble 24
  B : Vector Byte 12
  tb : Vector Bool 96
  header : Byte
  filter : Byte
  filterOk : Bool
  partition : Byte
  cpw : BitVec 6
  irw : BitVec 5
  cur6 : BitVec 7
  cur7 : BitVec 7
  curEnd : BitVec 7
  cp : BitVec 40
  ir : BitVec 24
  S : Vector Byte 5
  Rv : Vector Byte 5
  ser32 : BitVec 32
  ser38 : BitVec 38
  serial : BitVec 38
  dec : Vector Nibble 12
  ndig : BitVec 4
deriving DecidableEq, Repr

/-- Steps 6 to 8 once the widths are known (40_decode_top.md R60). -/
def fieldSteps (c : Config) (r : Request) (filter partition : Byte) (cpw : Nat) : Signals :=
  let B := tagBytes r
  let tb := streamBits B
  let irw := 44 - cpw
  let cur6 := 14
  let cp := readBitsSum tb cur6 cpw
  let cur7 := cur6 + cpw
  let ir := readBitsSum tb cur7 irw
  let curEnd := cur7 + irw
  let S := substituted B[0] #v[B[7], B[8], B[9], B[10], B[11]]
  let Rv := reversed S
  let s32 := reinterpreted Rv
  let s38 := BitVec.ofNat 38 (readBitsSum tb 58 38)
  let serial := serialOf c.serialMode s32 s38
  { nib := nibbles r
    B := B
    tb := tb
    header := B[0]
    filter := filter
    filterOk := Sys2Proof.Machine.filterOk filter
    partition := partition
    cpw := BitVec.ofNat 6 cpw
    irw := BitVec.ofNat 5 irw
    cur6 := BitVec.ofNat 7 cur6
    cur7 := BitVec.ofNat 7 cur7
    curEnd := BitVec.ofNat 7 curEnd
    cp := BitVec.ofNat 40 cp
    ir := BitVec.ofNat 24 ir
    S := S
    Rv := Rv
    ser32 := s32
    ser38 := s38
    serial := serial
    dec := decimalLanes serial.toNat
    ndig := BitVec.ofNat 4 (digitCount serial.toNat) }

/-- The whole of `decode` (40_decode_top.md R60): three tests, each of which may end it, then the
fields. -/
def decodeSteps (c : Config) (r : Request) : Except DecodeError Signals :=
  if r.len ≠ 24#8 then .error .malformedTag
  else if r.ch.toList.any (fun x => !isHex x) then .error .malformedTag
  else
    let B := tagBytes r
    if B[0] ≠ headerSgtin96 then .error (.unsupportedHeader B[0])
    else
      let filter := B[1] &&& filterMask
      let partition := B[1] &&& c.pmask.mask
      match ptable partition with
      | none => .error (.invalidPartition partition)
      | some f => .ok (fieldSteps c r filter partition f.cpw)

/-- The image of a result at the response port (10_state.md R26), from the signals. -/
def imageOf (c : Config) : Except DecodeError Signals → Response
  | .error e => errorImage c e
  | .ok x =>
    { status := statusOk
      errValue := 0
      companyPrefix := x.cp
      itemReference := x.ir
      serial := x.serial
      serialDec := x.dec
      serialNdig := x.ndig
      serialMode := serialModeBit c.serialMode
      dbgFilter := x.filter
      dbgPartition := x.partition
      dbgCpw := x.cpw
      dbgIrw := x.irw }

/-- The abstract result (40_decode_top.md R61, R62): the identity, or the error with its payload. -/
def resultOf : Except DecodeError Signals → Except DecodeError DecodedIdentity
  | .error e => .error e
  | .ok x => .ok { companyPrefix := x.cp, itemReference := x.ir, serialNumber := decimalString x.serial.toNat }

/-- `image(decode(req))` (40_decode_top.md R66). -/
def decodeImage (c : Config) (r : Request) : Response := imageOf c (decodeSteps c r)

end Sys2Proof.Machine
end

