-- ==== Sys2Proof/Safety.lean ====
section
/-! DEFINITION. What counts as a safe run, in the terms the claims use: a response that says nothing
the spec does not allow, and the state invariant that every response held or handed over is such. -/

namespace Sys2Proof.Machine

/-- Every format of 42_header_filter_partition.md R86. -/
def allFormats : List Format := [.p0, .p4, .p8, .p12, .p16, .p20, .p24]

/-- The result fields of a success agree with one row of the partition table that the mask can
select, with the widths, with the serial mode and with the decimal rendering (10_state.md R26,
60_exceptions.md R152, 44_serial_number.md R138 to R140). -/
def okLegal (c : Config) (r : Response) : Bool :=
  r.errValue == 0#8 && filterOk r.dbgFilter &&
  (allFormats.any fun f =>
    f.key &&& c.pmask.mask == f.key && r.dbgPartition == f.key &&
    r.dbgCpw == BitVec.ofNat 6 f.cpw && r.dbgIrw == BitVec.ofNat 5 f.irw &&
    decide (r.companyPrefix.toNat < 2 ^ f.cpw) && decide (r.itemReference.toNat < 2 ^ f.irw)) &&
  (c.serialMode == .corrected || decide (r.serial.toNat < 2 ^ 32)) &&
  r.serialDec == decimalLanes r.serial.toNat &&
  r.serialNdig == BitVec.ofNat 4 (digitCount r.serial.toNat)

/-- A response some request can have under the configuration `c`: a legal success, or one of the three
error images with a payload that 60_exceptions.md R152 lists; in both the mode bit is `SERIAL_MODE`. -/
def Response.legal (c : Config) (r : Response) : Bool :=
  r.serialMode == serialModeBit c.serialMode &&
  ((r.status == statusOk && okLegal c r) ||
   r == errorImage c .malformedTag ||
   (r == errorImage c (.unsupportedHeader r.errValue) && r.errValue != headerSgtin96) ||
   (r == errorImage c (.invalidPartition 28#8) && c.pmask == .x1C))

/-- The invariant: the response held, if one is, and every response the host has received are legal.
It says nothing about `RESP` while `RESP_VALID = 0`. -/
def State.inv (s : State) : Bool :=
  (!s.respValid || Response.legal s.config s.resp) && s.collected.all (Response.legal s.config)

/-- The host's operations of a plain batch: each request submitted and its response collected before
the next (95_test_vectors.md PR2, PR3). -/
def batchOps (reqs : List Request) : List HostOp :=
  reqs.flatMap fun r => [.submit r, .collect]

end Sys2Proof.Machine
end

