-- ==== Sys2Proof/WellFormed.lean ====
section
/-! DEFINITION. Which instructions a configuration has (30_encoding.md R52, R53): the checks that the
types of the operands do not make. -/

namespace Sys2Proof

/-- An instruction some request is, under the configuration `c`. The partition bits 001, 011, 101
and 111 select a row only under `PMASK = 0x1C` (42_header_filter_partition.md R90); header 48 is no
unsupported header (R80); a well-formed tag string is not malformed (30_encoding.md R45). -/
def Instr.wf (c : Config) : Instr → Bool
  | .p0 _ _ _ _ => true
  | .p4 _ _ _ _ => c.pmask == .x1C
  | .p8 _ _ _ _ => true
  | .p12 _ _ _ _ => c.pmask == .x1C
  | .p16 _ _ _ _ => true
  | .p20 _ _ _ _ => c.pmask == .x1C
  | .p24 _ _ _ _ => true
  | .invalidPartition _ _ => c.pmask == .x1C
  | .unsupportedHeader h _ => h != headerSgtin96
  | .malformedTag req => !req.isTag

end Sys2Proof
end

