-- ==== Sys2Proof/Certificates/Slice0/Obligations.lean ====
section
/-! DEFINITION. The statements for the provers. Each docstring names the rule of the spec it
formalises, or the log entry where the behaviour is the model's choice. -/

open Sys2Proof Sys2Proof.Machine

namespace Sys2Proof.Claims

/-- The 96-bit mask of the masked rows of spec/opcode_table.json. -/
def rowMask : TagWord := 0xFF1C00000000000000000000#96

/-- The match words of 30_encoding.md R50. -/
def rowMatch : Format → TagWord
  | .p0 => 0x300000000000000000000000#96
  | .p4 => 0x300400000000000000000000#96
  | .p8 => 0x300800000000000000000000#96
  | .p12 => 0x300C00000000000000000000#96
  | .p16 => 0x301000000000000000000000#96
  | .p20 => 0x301400000000000000000000#96
  | .p24 => 0x301800000000000000000000#96

/-- The widths `(cpw, irw)` of 42_header_filter_partition.md R86, as the table prints them. -/
def printedWidths : Format → Nat × Nat
  | .p0 => (40, 4)
  | .p4 => (37, 7)
  | .p8 => (34, 10)
  | .p12 => (30, 14)
  | .p16 => (27, 17)
  | .p20 => (24, 20)
  | .p24 => (20, 24)

/-- The keys of 42_header_filter_partition.md R86, as the table prints them. -/
def printedKey : Format → Nat
  | .p0 => 0
  | .p4 => 4
  | .p8 => 8
  | .p12 => 12
  | .p16 => 16
  | .p20 => 20
  | .p24 => 24

/-- The right-shift amounts of 43_field_extraction.md R105. -/
def cpShift : Format → Nat
  | .p0 => 42
  | .p4 => 45
  | .p8 => 48
  | .p12 => 52
  | .p16 => 55
  | .p20 => 58
  | .p24 => 62

/-- The company-prefix masks of 43_field_extraction.md R105. -/
def cpMask : Format → Nat
  | .p0 => 0xFFFFFFFFFF
  | .p4 => 0x1FFFFFFFFF
  | .p8 => 0x3FFFFFFFF
  | .p12 => 0x3FFFFFFF
  | .p16 => 0x7FFFFFF
  | .p20 => 0xFFFFFF
  | .p24 => 0xFFFFF

/-- The item-reference masks of 43_field_extraction.md R106. -/
def irMask : Format → Nat
  | .p0 => 0xF
  | .p4 => 0x7F
  | .p8 => 0x3FF
  | .p12 => 0x3FFF
  | .p16 => 0x1FFFF
  | .p20 => 0xFFFFF
  | .p24 => 0xFFFFFF

/-- The serial number of a 38-bit serial field in closed form (44_serial_number.md R130, R135, R138). -/
def serialClosed (c : Config) (ser : BitVec 38) : BitVec 38 :=
  match c.serialMode with
  | .parity => BitVec.ofNat 38 (ser.toNat % 2 ^ 32)
  | .corrected => ser

/-- The `OK` column of 10_state.md R26, every field written out. -/
def okColumn (c : Config) (f : Format) (filter : BitVec 3) (cp ir : Nat) (ser : BitVec 38) : Response where
  status := 0
  errValue := 0
  companyPrefix := BitVec.ofNat 40 cp
  itemReference := BitVec.ofNat 24 ir
  serial := serialClosed c ser
  serialDec := decimalLanes (serialClosed c ser).toNat
  serialNdig := BitVec.ofNat 4 (digitCount (serialClosed c ser).toNat)
  serialMode := if c.serialMode = .parity then 0 else 1
  dbgFilter := BitVec.ofNat 8 (32 * filter.toNat)
  dbgPartition := BitVec.ofNat 8 (printedKey f)
  dbgCpw := BitVec.ofNat 6 (printedWidths f).1
  dbgIrw := BitVec.ofNat 5 (printedWidths f).2

/-- A failure column of 10_state.md R26, every field written out. -/
def failureColumn (c : Config) (status : BitVec 2) (errValue : Byte) : Response where
  status := status
  errValue := errValue
  companyPrefix := 0
  itemReference := 0
  serial := 0
  serialDec := #v[0, 0, 0, 0, 0, 0, 0, 0, 0, 0, 0, 0]
  serialNdig := 0
  serialMode := if c.serialMode = .parity then 0 else 1
  dbgFilter := 0
  dbgPartition := 0
  dbgCpw := 0
  dbgIrw := 0

/-- The state after the acceptance of a request: `RESP`, `RESP_VALID` and the port written, nothing
else (40_decode_top.md R66). -/
def accepted (s : State) (r : Response) : State :=
  { s with resp := r, respValid := true, presented := none }

/-- Two characters that differ at most in the case of a letter: bit 5 of its code. -/
def sameUpToCase (a b : Byte) : Prop := a = b ∨ a ^^^ 0x20#8 = b

/-- Every response held or handed over is the image of some request's decode. -/
def FromDecodes (s : State) : Prop :=
  (s.respValid = true → ∃ r, s.resp = decodeImage s.config r) ∧
  ∀ x ∈ s.collected, ∃ r, x = decodeImage s.config r

end Sys2Proof.Claims

open Sys2Proof.Claims

/-! ### Encoding -/

/-- Decoding the encoding of a well-formed instruction gives it back, with every operand at every value
its width admits, under both masks (30_encoding.md sections 1 and 2). -/
def Obligations.DecodeOfEncodeIsTheInstruction : Prop :=
  ∀ (c : Config) (i : Instr), i.wf c = true → decode c (encode i) = i

/-- Every request is a well-formed instruction of the configuration (40_decode_top.md R69,
30_encoding.md R52, R53). -/
def Obligations.DecodedInstructionIsWellFormed : Prop :=
  ∀ (c : Config) (r : Request), (decode c r).wf c = true

/-- Under `PMASK = 0x1C` the decoder drops no bit of a tag: encoding what it read gives the tag's own
upper-case text (30_encoding.md R48, R54; 20_memory.md section 6). -/
def Obligations.EncodeOfDecodeIsTheTagsText : Prop :=
  ∀ (c : Config) (r : Request), c.pmask = .x1C → r.isTag = true →
    encode (decode c r) = textOf (tagWord r)

/-- Under `PMASK = 0x1C` the match words and the mask of the table select the rows (30_encoding.md
section 2 and section 4). -/
def Obligations.MatchAndMaskSelectTheRow : Prop :=
  ∀ (c : Config) (t : TagWord), c.pmask = .x1C →
    (∀ f, decodeTag c t = decodeFormat t f ↔ t &&& rowMask = rowMatch f) ∧
    (decodeTag c t = .invalidPartition (readBits t 8 3) (readBits t 14 82) ↔
      t &&& rowMask = 0x301C00000000000000000000#96) ∧
    (decodeTag c t = .unsupportedHeader (byteAt t 0) (readBits t 8 88) ↔ t.toNat / 2 ^ 88 ≠ 48)

/-- 20_memory.md R33 and 43_field_extraction.md R100: the sum of weighted stream bits, the slice of `T`
and the shift and mask are one value, below `2^w`, and a read of width 0 gives 0. -/
def Obligations.ReadBitsFormsAgree : Prop :=
  ∀ (t : TagWord) (off w : Nat) (h : off + w ≤ 96),
    (readBits t off w h).toNat =
      ((List.range w).map fun j => (t.getMsbD (off + j)).toNat * 2 ^ (w - 1 - j)).sum ∧
    (1 ≤ w → (readBits t off w h).toNat =
      t.toNat / 2 ^ (96 - off - w) % 2 ^ ((95 - off) - (96 - off - w) + 1)) ∧
    (readBits t off w h).toNat = (t.toNat >>> (96 - off - w)) &&& (2 ^ w - 1) ∧
    (readBits t off w h).toNat < 2 ^ w ∧
    (w = 0 → (readBits t off w h).toNat = 0)

/-- 41_surface_validation.md R75: bytes, stream bits and word hold one content. -/
def Obligations.BytesBitsAndWordAreOneContent : Prop :=
  ∀ (r : Request),
    (∀ (k j : Nat) (hk : k < 12) (hj : j < 8),
      (streamBits (tagBytes r))[8 * k + j] = (tagBytes r)[k].getLsbD (7 - j) ∧
      (tagBytes r)[k].getLsbD (7 - j) = (tagWord r).getLsbD (95 - 8 * k - j)) ∧
    (tagWord r).toNat =
      ((List.range 12).map fun k => ((tagBytes r).toList.getD k 0).toNat * 256 ^ (11 - k)).sum

/-- A few words written out from the patterns of 30_encoding.md R50 decode to what they stand for. -/
def Obligations.WordsDecodeToTheirInstructions : Prop :=
  decodeTableWord 96 0x300048D159E26AEFEDCBA987 =
    some (.p0 0 0x123456789A#40 0xB#4 0x2FEDCBA987#38) ∧
  decodeTableWord 96 0x3019B9368A10A6C022E76FF5 =
    some (.p24 0 451802#20 2638491#24 585592821#38) ∧
  decodeTableWord 96 0x3089F8221B8D6B800E501E97 =
    some (.p8 4 8457952141#34 430#10 240131735#38) ∧
  decodeTableWord 96 0x301C00000000000000000000 = some (.invalidPartition 0 0) ∧
  decodeTableWord 96 0x360000000000000000000000 = some (.unsupportedHeader 54 0) ∧
  decodeTableWord 0 0 = some (.malformedTag (Request.ofCodes []))

/-! ### Steps 1 to 5 -/

/-- 41_surface_validation.md R70: a string of any other length than 24 is malformed. -/
def Obligations.WrongLengthIsMalformed : Prop :=
  ∀ (s : State) (codes : List Byte), codes.length ≠ 24 → s.respValid = false →
    exec (decode s.config (Request.ofCodes codes)) s = .next (accepted s (failureColumn s.config 1 0))

/-- 41_surface_validation.md R71: one character that is no hex digit, in any of the 24 lanes, suffices. -/
def Obligations.NonHexCharacterIsMalformed : Prop :=
  ∀ (s : State) (r : Request) (i : Fin 24), r.len = 24 →
    ¬((0x30 ≤ r.ch[i].toNat ∧ r.ch[i].toNat ≤ 0x39) ∨ (0x41 ≤ r.ch[i].toNat ∧ r.ch[i].toNat ≤ 0x46) ∨
      (0x61 ≤ r.ch[i].toNat ∧ r.ch[i].toNat ≤ 0x66)) →
    s.respValid = false →
    exec (decode s.config r) s = .next (accepted s (failureColumn s.config 1 0))

/-- 41_surface_validation.md R76: strings that differ only in the case of letters give the same bytes,
the same word and the same response. -/
def Obligations.LetterCaseDoesNotMatter : Prop :=
  ∀ (s : State) (r r' : Request), r.isTag = true → r'.isTag = true →
    (∀ i : Fin 24, sameUpToCase r.ch[i] r'.ch[i]) →
    tagBytes r = tagBytes r' ∧ tagWord r = tagWord r' ∧
      exec (decode s.config r) s = exec (decode s.config r') s

/-- 42_header_filter_partition.md R80, R81: any header but 48 is unsupported, before byte 1 is looked
at, with the header byte itself as payload. -/
def Obligations.OtherHeadersAreUnsupported : Prop :=
  ∀ (s : State) (r : Request), r.isTag = true → (tagBytes r)[0] ≠ 48#8 → s.respValid = false →
    exec (decode s.config r) s = .next (accepted s (failureColumn s.config 2 (tagBytes r)[0]))

/-- 42_header_filter_partition.md R83: what the filter check tests, and that it cannot fail, for any
byte. -/
def Obligations.FilterCheckAlwaysPasses : Prop :=
  (∀ b : Byte, filterOk b = true ↔ b.toNat ∈ [0, 32, 64, 96, 128, 160, 192, 224]) ∧
  (∀ b : Byte, filterOk (b &&& 0xE0#8) = true)

/-- 42_header_filter_partition.md R86, R88: the seven rows, no other key, and widths that sum to 44. -/
def Obligations.PartitionTableHasItsSevenRows : Prop :=
  (∀ (p : Byte) (f : Format), ptable p = some f ↔ p.toNat = printedKey f) ∧
  (∀ f : Format, (f.cpw, f.irw) = printedWidths f ∧ f.irw = 44 - f.cpw ∧ f.cpw + f.irw = 44)

/-- 42_header_filter_partition.md R89: under `PMASK = 0x1C` each row is reached whatever the filter bits
and the last two bits of byte 1 are; the partition bits 111 give 28 and reach none, and a tag with header
48 and such a byte 1 raises `InvalidPartition(28)`. -/
def Obligations.EveryPartitionRowIsReached : Prop :=
  (∀ (f : Format) (filter : BitVec 3) (low : BitVec 2),
    ptable ((filter ++ BitVec.ofNat 3 (printedKey f / 4) ++ low) &&& PMask.x1C.mask) = some f) ∧
  (∀ (filter : BitVec 3) (low : BitVec 2),
    (filter ++ 7#3 ++ low) &&& PMask.x1C.mask = 28#8 ∧
      ptable ((filter ++ 7#3 ++ low) &&& PMask.x1C.mask) = none) ∧
  ((List.range 256).filter fun n => (ptable (BitVec.ofNat 8 n &&& PMask.x1C.mask)).isNone).length = 32 ∧
  (∀ (s : State) (r : Request), r.isTag = true → (tagBytes r)[0] = 48#8 → s.config.pmask = .x1C →
    (tagBytes r)[1] &&& 0x1C#8 = 28#8 → s.respValid = false →
    exec (decode s.config r) s = .next (accepted s (failureColumn s.config 3 28)))

/-- 42_header_filter_partition.md R90: under `PMASK = 0x18` bit 13 of the stream is ignored, the rows 4,
12 and 20 and `InvalidPartition` never occur, and the two masks give different responses exactly on
the tags with header 48 and that bit set. -/
def Obligations.AlternateMaskIgnoresBitThirteen : Prop :=
  ∀ (m : SerialMode) (r : Request), r.isTag = true →
    (∀ r' : Request, r'.isTag = true → tagWord r' ||| (1#96 <<< 82) = tagWord r ||| (1#96 <<< 82) →
      decodeImage ⟨.x18, m⟩ r' = decodeImage ⟨.x18, m⟩ r) ∧
    ((tagBytes r)[0] = 48#8 →
      ∃ f ∈ [Format.p0, .p8, .p16, .p24], decode ⟨.x18, m⟩ r = decodeFormat (tagWord r) f ∧
        (tagBytes r)[1] &&& 0x18#8 = BitVec.ofNat 8 (printedKey f)) ∧
    (decodeImage ⟨.x18, m⟩ r ≠ decodeImage ⟨.x1C, m⟩ r ↔
      (tagBytes r)[0] = 48#8 ∧ (tagWord r).getMsbD 13 = true)

/-! ### Steps 6 and 7 -/

/-- 43_field_extraction.md R105, R106 and the formulas of section 5: in every format the company prefix
is `T` shifted by `82 - cpw` under its mask and the item reference is `T` shifted by 38 under its mask;
the decode succeeds and exports the row of the table. -/
def Obligations.FieldsAreShiftsAndMasksOfTheWord : Prop :=
  ∀ (s : State) (r : Request) (f : Format), r.isTag = true → s.config.pmask = .x1C →
    tagWord r &&& rowMask = rowMatch f → s.respValid = false →
    ∃ R, exec (decode s.config r) s = .next (accepted s R) ∧ R.status = 0 ∧ R.errValue = 0 ∧
      R.companyPrefix.toNat = ((tagWord r).toNat >>> cpShift f) &&& cpMask f ∧
      R.companyPrefix.toNat =
        ((tagWord r).toNat >>> (82 - R.dbgCpw.toNat)) &&& (2 ^ R.dbgCpw.toNat - 1) ∧
      R.itemReference.toNat = ((tagWord r).toNat >>> 38) &&& irMask f ∧
      R.itemReference.toNat = ((tagWord r).toNat >>> 38) &&& (2 ^ R.dbgIrw.toNat - 1) ∧
      R.dbgPartition.toNat = printedKey f ∧ (R.dbgCpw.toNat, R.dbgIrw.toNat) = printedWidths f

/-- 43_field_extraction.md R107: the 44-bit form, for every split of the 44 bits, and its agreement with
the shifts and masks of R105 and R106. -/
def Obligations.FieldsSplitTheFortyFourBits : Prop :=
  ∀ (t : TagWord) (cpw : Nat) (_h : cpw ≤ 44),
    (readBits t 14 44).toNat = t.toNat / 2 ^ 38 % 2 ^ 44 ∧
    (readBits t 14 cpw).toNat = (readBits t 14 44).toNat >>> (44 - cpw) ∧
    (readBits t (14 + cpw) (44 - cpw)).toNat = (readBits t 14 44).toNat &&& (2 ^ (44 - cpw) - 1) ∧
    (readBits t 14 44).toNat =
      (readBits t 14 cpw).toNat * 2 ^ (44 - cpw) + (readBits t (14 + cpw) (44 - cpw)).toNat ∧
    (readBits t 14 cpw).toNat = (t.toNat >>> (82 - cpw)) &&& (2 ^ cpw - 1) ∧
    (readBits t (14 + cpw) (44 - cpw)).toNat = (t.toNat >>> 38) &&& (2 ^ (44 - cpw) - 1)

/-- 42_header_filter_partition.md R92: the two most significant bits of the company prefix are
`B[1][1:0]`, at every width. -/
def Obligations.CompanyPrefixStartsInByteOne : Prop :=
  ∀ (t : TagWord) (f : Format) (w : Nat) (_h : w ≤ 44), w = f.cpw →
    (readBits t 14 w).toNat / 2 ^ (w - 2) = (byteAt t 1).toNat % 4

/-- 43_field_extraction.md R104 and 10_state.md R22: the cursor's whole life in a decode, the widths'
sum, the bounds of the fields and the filter check. -/
def Obligations.CursorEndsAtFiftyEight : Prop :=
  ∀ (c : Config) (r : Request) (x : Signals), decodeSteps c r = .ok x →
    x.cur6.toNat = 14 ∧ x.cur7.toNat = 14 + x.cpw.toNat ∧
    x.curEnd.toNat = 14 + x.cpw.toNat + x.irw.toNat ∧ x.curEnd.toNat = 58 ∧
    x.cpw.toNat + x.irw.toNat = 44 ∧
    x.cp.toNat < 2 ^ x.cpw.toNat ∧ x.ir.toNat < 2 ^ x.irw.toNat ∧
    x.cp.toNat = readBitsSum x.tb 14 x.cpw.toNat ∧
    x.ir.toNat = readBitsSum x.tb (14 + x.cpw.toNat) (44 - x.cpw.toNat) ∧
    x.filterOk = true

/-- 43_field_extraction.md R119 and 30_encoding.md R54: two tags that differ only in the filter bits
have the same response in every field but `dbg_filter`. -/
def Obligations.FilterReachesOnlyItsDebugField : Prop :=
  ∀ (s : State) (r r' : Request), r.isTag = true → r'.isTag = true →
    tagWord r ||| (7#96 <<< 85) = tagWord r' ||| (7#96 <<< 85) → s.respValid = false →
    ∃ R f', exec (decode s.config r) s = .next (accepted s R) ∧
      exec (decode s.config r') s = .next (accepted s { R with dbgFilter := f' })

/-! ### Step 8 -/

/-- 44_serial_number.md R135: the four-rule pipeline is the tag's last four bytes, big-endian. -/
def Obligations.SerialPipelineHasItsClosedForm : Prop :=
  ∀ t : TagWord,
    let s32 := ser32 (byteAt t 0) #v[byteAt t 7, byteAt t 8, byteAt t 9, byteAt t 10, byteAt t 11]
    s32.toNat = (byteAt t 8).toNat * 2 ^ 24 + (byteAt t 9).toNat * 2 ^ 16 +
      (byteAt t 10).toNat * 2 ^ 8 + (byteAt t 11).toNat ∧
    s32 = readBits t 64 32 ∧ s32.toNat = t.toNat % 2 ^ 32

/-- 44_serial_number.md R136: neither byte 7 nor the header nor the substituted byte reaches `ser32`,
which is what the pipeline gives whatever byte stands in the substituted place. -/
def Obligations.SubstitutedByteDoesNotReachTheSerial : Prop :=
  ∀ (header header' : Byte) (tail : Vector Byte 5) (b7 : Byte),
    ser32 header tail = ser32 header' (tail.set 0 b7) ∧
    ser32 header tail = reinterpreted (reversed (tail.set 0 b7))

/-- 44_serial_number.md R137: how the two serial numbers are related and when they are equal. -/
def Obligations.SerialModesDifferByBitsFiftyEightToSixtyThree : Prop :=
  ∀ t : TagWord,
    let s32 := ser32 (byteAt t 0) #v[byteAt t 7, byteAt t 8, byteAt t 9, byteAt t 10, byteAt t 11]
    let s38 := readBits t 58 38
    s32.toNat = s38.toNat % 2 ^ 32 ∧ s38.toNat = (byteAt t 7).toNat % 2 ^ 6 * 2 ^ 32 + s32.toNat ∧
    (s32.toNat = s38.toNat ↔ (byteAt t 7).toNat % 2 ^ 6 = 0) ∧
    (s32.toNat = s38.toNat ↔ ∀ i, 58 ≤ i → i ≤ 63 → t.getMsbD i = false) ∧
    (s32.toNat = s38.toNat ↔ s38.toNat < 4294967296)

/-- 44_serial_number.md R138, with R130 and R135: every successful decode returns `T mod 2^32` in
`parity` mode and `T mod 2^38` in `corrected` mode, and flags the mode. -/
def Obligations.SerialModeSelectsTheSerial : Prop :=
  ∀ (s : State) (r : Request) (R : Response),
    exec (decode s.config r) s = .next (accepted s R) → s.respValid = false → R.status = 0 →
    (s.config.serialMode = .parity →
      R.serial.toNat = (tagWord r).toNat % 2 ^ 32 ∧ R.serialMode = 0) ∧
    (s.config.serialMode = .corrected →
      R.serial.toNat = (tagWord r).toNat % 2 ^ 38 ∧ R.serialMode = 1)

/-- 44_serial_number.md section 2 and 30_encoding.md R54: in `parity` mode stream bits 58 to 63 reach no
output. -/
def Obligations.ParityModeIgnoresBitsFiftyEightToSixtyThree : Prop :=
  ∀ (s : State) (r r' : Request), s.config.serialMode = .parity → r.isTag = true → r'.isTag = true →
    tagWord r ||| (63#96 <<< 32) = tagWord r' ||| (63#96 <<< 32) →
    exec (decode s.config r) s = exec (decode s.config r') s

/-- 44_serial_number.md R139 to R141: a success holds at its port the lanes and the digit count of its
serial number, and they are the shortest decimal rendering of every value the port can carry. -/
def Obligations.DigitLanesRenderTheSerial : Prop :=
  (∀ (c : Config) (f : Format) (filter : Byte) (cp : BitVec 40) (ir : BitVec 24) (v : BitVec 38),
    (okImage c f filter cp ir v).serialDec = decimalLanes v.toNat ∧
    (okImage c f filter cp ir v).serialNdig.toNat = digitCount v.toNat) ∧
  ∀ n, n < 2 ^ 38 →
    1 ≤ digitCount n ∧ digitCount n ≤ 12 ∧ n < 10 ^ digitCount n ∧
    (∀ k, 1 ≤ k → n < 10 ^ k → digitCount n ≤ k) ∧
    ((List.range (digitCount n)).map fun i =>
      ((decimalLanes n).toList.getD i 0).toNat * 10 ^ (digitCount n - 1 - i)).sum = n ∧
    (∀ i, (h : i < 12) → (decimalLanes n)[i].toNat ≤ 9 ∧
      (i < digitCount n → (decimalLanes n)[i].toNat = n / 10 ^ (digitCount n - 1 - i) % 10) ∧
      (digitCount n ≤ i → (decimalLanes n)[i] = 0)) ∧
    ((decimalLanes n)[0] = 0 → n = 0) ∧
    decimalString n =
      ((decimalLanes n).toList.take (digitCount n)).map fun d => BitVec.ofNat 8 (0x30 + d.toNat)

/-! ### The decode as a whole -/

/-- 40_decode_top.md R60: on every request the instruction the decoder reads writes into `RESP` exactly
the image of the eight steps, and nothing but `RESP`, `RESP_VALID` and the port changes. -/
def Obligations.MachineRunsTheEightSteps : Prop :=
  ∀ (s : State) (r : Request), s.respValid = false →
    exec (decode s.config r) s = .next (accepted s (decodeImage s.config r))

/-- 40_decode_top.md R61, R62: what the host reads from the response is the identity or the error that
`decode` returns. -/
def Obligations.HostReadsTheResultOfTheDecode : Prop :=
  ∀ (c : Config) (r : Request), readResponse (decodeImage c r) = resultOf (decodeSteps c r)

/-- 60_exceptions.md R153, R155: the complete list of conditions, the earliest step's error reported. -/
def Obligations.StatusFollowsTheStepOrder : Prop :=
  ∀ (s : State) (r : Request), s.respValid = false →
    ∃ R, exec (decode s.config r) s = .next (accepted s R) ∧
      (R.status = 1 ↔ r.len ≠ 24 ∨ ∃ i : Fin 24, isHex r.ch[i] = false) ∧
      (R.status = 2 ↔ r.isTag = true ∧ (tagBytes r)[0] ≠ 48#8) ∧
      (R.status = 3 ↔ r.isTag = true ∧ (tagBytes r)[0] = 48#8 ∧
        ((tagBytes r)[1] &&& s.config.pmask.mask).toNat ∉ [0, 4, 8, 12, 16, 20, 24]) ∧
      (R.status = 1 → R.errValue = 0) ∧ (R.status = 2 → R.errValue = (tagBytes r)[0]) ∧
      (R.status = 3 → R.errValue = (tagBytes r)[1] &&& s.config.pmask.mask)

/-- 40_decode_top.md R64, 10_state.md R20: the response is a function of the request and of the
configuration, whatever else the two states hold. -/
def Obligations.ResponseDependsOnRequestAndConfigurationAlone : Prop :=
  ∀ (s s' : State) (r : Request), s.config = s'.config → s.respValid = false → s'.respValid = false →
    ∃ R, exec (decode s.config r) s = .next (accepted s R) ∧
      exec (decode s'.config r) s' = .next (accepted s' R)

/-! ### Each instruction -/

/-- The seven formats run on every operand, with every field of the response as the `OK` column of
10_state.md R26 gives it (43_field_extraction.md section 5, 44_serial_number.md section 3). Under
`PMASK = 0x18` the rows P4, P12 and P20 never occur (42_header_filter_partition.md R90); that they give
their row's effect there too is the model's choice (DESIGN CHOICE, log 18). -/
def Obligations.FormatsRunToTheOkColumn : Prop :=
  ∀ (s : State) (f : BitVec 3) (ser : BitVec 38), s.respValid = false →
    (∀ cp ir, exec (.p0 f cp ir ser) s =
      .next (accepted s (okColumn s.config .p0 f cp.toNat ir.toNat ser))) ∧
    (∀ cp ir, exec (.p4 f cp ir ser) s =
      .next (accepted s (okColumn s.config .p4 f cp.toNat ir.toNat ser))) ∧
    (∀ cp ir, exec (.p8 f cp ir ser) s =
      .next (accepted s (okColumn s.config .p8 f cp.toNat ir.toNat ser))) ∧
    (∀ cp ir, exec (.p12 f cp ir ser) s =
      .next (accepted s (okColumn s.config .p12 f cp.toNat ir.toNat ser))) ∧
    (∀ cp ir, exec (.p16 f cp ir ser) s =
      .next (accepted s (okColumn s.config .p16 f cp.toNat ir.toNat ser))) ∧
    (∀ cp ir, exec (.p20 f cp ir ser) s =
      .next (accepted s (okColumn s.config .p20 f cp.toNat ir.toNat ser))) ∧
    (∀ cp ir, exec (.p24 f cp ir ser) s =
      .next (accepted s (okColumn s.config .p24 f cp.toNat ir.toNat ser)))

/-- The three error rows run on every operand to their failure column of 10_state.md R26, with the
status and payload of 60_exceptions.md R151, R152. No request decodes to `invalidPartition` under
`PMASK = 0x18`, to `unsupportedHeader` of 48 or to `malformedTag` of a well-formed tag; that these give
their row's effect too is the model's choice (DESIGN CHOICE, log 18). -/
def Obligations.ErrorRowsRunToTheirFailureColumn : Prop :=
  ∀ s : State, s.respValid = false →
    (∀ req, exec (.malformedTag req) s = .next (accepted s (failureColumn s.config 1 0))) ∧
    (∀ h rest, exec (.unsupportedHeader h rest) s = .next (accepted s (failureColumn s.config 2 h))) ∧
    (∀ f rest, exec (.invalidPartition f rest) s = .next (accepted s (failureColumn s.config 3 28)))

/-- The frame of every instruction (40_decode_top.md R66, "Nothing else changes"): an instruction that
ends in a next state leaves the configuration, the host's operations, the copies handed over and the
model's counter; while a response is held it changes nothing at all; otherwise a response is held
afterwards and the port is free. -/
def Obligations.InstructionsChangeOnlyTheResponseRegister : Prop :=
  ∀ (i : Instr) (s t : State), exec i s = .next t →
    t.config = s.config ∧ t.hostOps = s.hostOps ∧ t.collected = s.collected ∧ t.draws = s.draws ∧
    (s.respValid = true → t = s) ∧
    (s.respValid = false → t.respValid = true ∧ t.presented = none)

/-! ### Steps of the machine -/

/-- A step runs the decoded instruction: of the request that waits at the port once no response is held
and no reset is applied, of the request the host submits while nothing waits, and of the word of a
table row placed by `withFetchWord` (log 15). -/
def Obligations.StepRunsTheDecodedInstruction : Prop :=
  (∀ (s : State) (r : Request), s.presented = some r → s.respValid = false →
    (∀ rest, s.hostOps ≠ .reset :: rest) → step s = exec (decode s.config r) s) ∧
  (∀ (s : State) (r : Request) (rest : List HostOp), s.hostOps = .submit r :: rest → s.presented = none →
    step s = exec (decode s.config r) { s with hostOps := rest, presented := some r }) ∧
  (∀ (s : State) (nbits w : Nat) (i : Instr), s.config = Config.thisHardware →
    decodeTableWord nbits w = some i →
    step (s.withFetchWord nbits w) =
      exec i { s with respValid := false, presented := some (tableRequest nbits w) })

/-- 40_decode_top.md R66: SUBMIT is accepted when no response is held, as one step; otherwise the request
waits and the response is untouched. -/
def Obligations.SubmitIsAcceptedOrWaits : Prop :=
  ∀ (s : State) (r : Request) (rest : List HostOp), s.hostOps = .submit r :: rest → s.presented = none →
    (s.respValid = false → step s =
      .next { s with hostOps := rest, resp := decodeImage s.config r, respValid := true }) ∧
    (s.respValid = true → step s = .next { s with hostOps := rest, presented := some r })

/-- 40_decode_top.md R67: COLLECT hands over a copy of `RESP`, clears `RESP_VALID` and leaves `RESP`. -/
def Obligations.CollectHandsOverTheResponse : Prop :=
  ∀ (s : State) (rest : List HostOp), s.hostOps = .collect :: rest → s.respValid = true →
    step s = .next { s with hostOps := rest, respValid := false, collected := s.collected ++ [s.resp] }

/-- 40_decode_top.md R66: the request that waited is decoded in the step after the COLLECT that lifts the
wait, and the held response is not overwritten before it is handed over (95_test_vectors.md PR5). -/
def Obligations.WaitingRequestIsServedAfterCollect : Prop :=
  ∀ (s : State) (r : Request) (rest : List HostOp), s.presented = some r → s.respValid = true →
    s.hostOps = .collect :: rest → (∀ rest', rest ≠ .reset :: rest') →
    core.run 2 s = .next { s with
      hostOps := rest, presented := none, resp := decodeImage s.config r, respValid := true
      collected := s.collected ++ [s.resp] }

/-- 70_reset_and_hazards.md R170: reset, whenever it is applied, clears `RESP_VALID`, drops a request
not yet accepted, and leaves the configuration and the host's copies. Nothing is said of `RESP`. -/
def Obligations.ResetClearsRespValid : Prop :=
  ∀ (s : State) (rest : List HostOp), s.hostOps = .reset :: rest →
    ∃ t, step s = .next t ∧ t.respValid = false ∧ t.presented = none ∧ t.hostOps = rest ∧
      t.config = s.config ∧ t.collected = s.collected

/-- 70_reset_and_hazards.md R171: the response to a request after a reset is the response with no reset,
and the image of its decode. -/
def Obligations.ResetDoesNotChangeLaterResponses : Prop :=
  ∀ (s s' : State) (r : Request) (rest : List HostOp), s.hostOps = .reset :: .submit r :: rest →
    s'.config = s.config → s'.hostOps = .submit r :: rest → s'.presented = none → s'.respValid = false →
    ∃ t t', core.run 2 s = .next t ∧ step s' = .next t' ∧ t.respValid = true ∧ t'.respValid = true ∧
      t.resp = t'.resp ∧ t.resp = decodeImage s.config r

/-- 10_state.md R24 and the frame of a step: no step changes the configuration, and the host's copies
change only by the response held being appended, at a COLLECT. -/
def Obligations.StepKeepsConfigurationAndCopies : Prop :=
  ∀ s t : State, step s = .next t →
    t.config = s.config ∧
    (t.collected = s.collected ∨
      (s.respValid = true ∧ s.hostOps.head? = some .collect ∧ t.collected = s.collected ++ [s.resp]))

/-- 40_decode_top.md R66 ("RESP is written only by SUBMIT", 10_state.md R27): a response that is held
stays as it is until a COLLECT or a reset ends its being held. -/
def Obligations.HeldResponseIsNotOverwritten : Prop :=
  ∀ s t : State, s.respValid = true → step s = .next t →
    (t.respValid = true → t.resp = s.resp) ∧
    (t.respValid = false → s.hostOps.head? = some .collect ∨ s.hostOps.head? = some .reset)

/-- 60_exceptions.md R159, 40_decode_top.md R69: the machine never faults, and the one refusal is the
COLLECT of a response that is not there (the model's treatment of 93_implementation_defined.md U11,
log 10). -/
def Obligations.StepStopsOnlyAtACollectOfNothing : Prop :=
  ∀ s : State, (∃ t, step s = .next t) ∨
    (step s = .refused .collectNotEnabled ∧ s.respValid = false ∧ s.presented = none ∧
      s.hostOps.head? = some .collect)

/-- 70_reset_and_hazards.md R173 as the model treats it (log 9): presenting the same request again holds
it; presenting another leaves some request at the port; either way the response held is untouched. -/
def Obligations.PresentingAgainKeepsTheHeldResponse : Prop :=
  ∀ (s : State) (r r' : Request) (rest : List HostOp), s.presented = some r → s.respValid = true →
    s.hostOps = .submit r' :: rest →
    (r' = r → step s = .next { s with hostOps := rest }) ∧
    (∃ t x, step s = .next t ∧ t.presented = some x ∧ t.resp = s.resp ∧ t.respValid = true ∧
      t.collected = s.collected ∧ t.config = s.config)

/-! ### Invariants and runs -/

/-- Every step keeps the invariant that the response held and the responses handed over are legal
(10_state.md R26, 60_exceptions.md R152), from every state that meets it. -/
def Obligations.StepKeepsResponsesLegal : Prop :=
  ∀ s t : State, s.inv = true → step s = .next t → t.inv = true

/-- The state after reset meets it. -/
def Obligations.ResetStateHasLegalResponses : Prop :=
  State.reset.inv = true

/-- Every step keeps the invariant that each response held or handed over is the image of the decode of
some request: an error leaves nothing behind (60_exceptions.md R154, R157; 10_state.md R20). -/
def Obligations.StepKeepsResponsesFromDecodes : Prop :=
  ∀ s t : State, FromDecodes s → step s = .next t → FromDecodes t

/-- 70_reset_and_hazards.md R174, 10_state.md R20: from any idle state, with any operations to follow, a
batch of any requests, errors among them, is answered completely, in the order of the requests, each
response that of its own request alone; two steps a request. -/
def Obligations.BatchIsAnsweredInOrder : Prop :=
  ∀ (reqs : List Request) (rest : List HostOp) (s : State), s.respValid = false → s.presented = none →
    s.hostOps = batchOps reqs ++ rest →
    ∃ t, core.run (2 * reqs.length) s = .next t ∧ t.respValid = false ∧ t.presented = none ∧
      t.hostOps = rest ∧ t.config = s.config ∧
      t.collected = s.collected ++ reqs.map (decodeImage s.config)
end

