-- ==== Sys2Proof/Laws/Decode.lean ====
section
/-! SUPPORT. The text form, the bytes and the word of a request, and reads of the word as numbers. -/

namespace Sys2Proof

/-- Concatenation as arithmetic. -/
theorem append_toNat {n m : Nat} (x : BitVec n) (y : BitVec m) :
    (x ++ y).toNat = x.toNat * 2 ^ m + y.toNat := by
  rw [BitVec.toNat_append, ← Nat.shiftLeft_add_eq_or_of_lt y.isLt, Nat.shiftLeft_eq]

/-- A read as a number (20_memory.md R33, third form as division and remainder). -/
theorem readBits_toNat (t : TagWord) (off w : Nat) (h : off + w ≤ 96) :
    (readBits t off w h).toNat = t.toNat / 2 ^ (96 - off - w) % 2 ^ w := by
  simp [readBits, BitVec.extractLsb'_toNat, Nat.shiftRight_eq_div_pow]

/-- A bit of a read is a stream bit. -/
theorem readBits_getLsbD (t : TagWord) (off w i : Nat) (h : off + w ≤ 96) :
    (readBits t off w h).getLsbD i = (decide (i < w) && t.getLsbD (96 - off - w + i)) := by
  simp [readBits, BitVec.getLsbD_extractLsb']

theorem byteAt_toNat (t : TagWord) (k : Nat) (h : k < 12) :
    (byteAt t k h).toNat = t.toNat / 2 ^ (88 - 8 * k) % 2 ^ 8 := by
  rw [byteAt, readBits_toNat]; congr 3; omega

theorem isHex_hexDigit : ∀ n : Nibble, isHex (hexDigit n) = true := by decide

theorem hexval_hexDigit : ∀ n : Nibble, hexval (hexDigit n) = n := by decide

/-- The two cases of a letter have one value (30_encoding.md R46). -/
theorem hexval_caseBit : ∀ c : Byte, isHex c = true → isHex (c ^^^ 0x20#8) = true →
    hexval (c ^^^ 0x20#8) = hexval c := by decide

/-- The text form, lane by lane (30_encoding.md R45). -/
theorem isTag_iff (r : Request) :
    r.isTag = true ↔ r.len = 24#8 ∧ ∀ i : Fin 24, isHex r.ch[i] = true := by
  simp only [Request.isTag, Bool.and_eq_true, beq_iff_eq, List.all_eq_true, Vector.mem_toList_iff]
  constructor
  · rintro ⟨h, g⟩; exact ⟨h, fun i => g _ (Vector.getElem_mem i.isLt)⟩
  · rintro ⟨h, g⟩
    refine ⟨h, fun x hx => ?_⟩
    obtain ⟨i, hi, rfl⟩ := Vector.getElem_of_mem hx
    exact g ⟨i, hi⟩

@[simp] theorem textOf_isTag (t : TagWord) : (textOf t).isTag = true := by
  rw [isTag_iff]
  exact ⟨rfl, fun i => by simp [textOf, isHex_hexDigit]⟩

theorem tagBytes_getElem (r : Request) (k : Nat) (h : k < 12) :
    (tagBytes r)[k] =
      (hexval r.ch[2 * k]).setWidth 8 * 16#8 + (hexval r.ch[2 * k + 1]).setWidth 8 := by
  simp [tagBytes, nibbles]

theorem tagByte_toNat (r : Request) (k : Nat) (h : k < 12) :
    (tagBytes r)[k].toNat = (hexval r.ch[2 * k]).toNat * 16 + (hexval r.ch[2 * k + 1]).toNat := by
  rw [tagBytes_getElem]
  have h1 := (hexval r.ch[2 * k]).isLt
  have h2 := (hexval r.ch[2 * k + 1]).isLt
  simp only [BitVec.toNat_add, BitVec.toNat_mul, BitVec.toNat_setWidth, BitVec.toNat_ofNat]
  omega

/-- The word is the bytes read big-endian (30_encoding.md R47). -/
theorem tagWord_toNat (r : Request) :
    (tagWord r).toNat =
      (tagBytes r)[0].toNat * 256 ^ 11 + (tagBytes r)[1].toNat * 256 ^ 10 +
      (tagBytes r)[2].toNat * 256 ^ 9 + (tagBytes r)[3].toNat * 256 ^ 8 +
      (tagBytes r)[4].toNat * 256 ^ 7 + (tagBytes r)[5].toNat * 256 ^ 6 +
      (tagBytes r)[6].toNat * 256 ^ 5 + (tagBytes r)[7].toNat * 256 ^ 4 +
      (tagBytes r)[8].toNat * 256 ^ 3 + (tagBytes r)[9].toNat * 256 ^ 2 +
      (tagBytes r)[10].toNat * 256 + (tagBytes r)[11].toNat := by
  simp only [tagWord, append_toNat]
  ring

/-- A byte of the word is the byte the characters spelt. -/
theorem byteAt_tagWord (r : Request) (k : Nat) (h : k < 12) :
    byteAt (tagWord r) k h = (tagBytes r)[k] := by
  apply BitVec.eq_of_toNat_eq
  rw [byteAt_toNat, tagWord_toNat]
  have hb : ∀ j (hj : j < 12), (tagBytes r)[j].toNat < 256 := fun j _ => (tagBytes r)[j].isLt
  have h0 := hb 0 (by omega); have h1 := hb 1 (by omega); have h2 := hb 2 (by omega)
  have h3 := hb 3 (by omega); have h4 := hb 4 (by omega); have h5 := hb 5 (by omega)
  have h6 := hb 6 (by omega); have h7 := hb 7 (by omega); have h8 := hb 8 (by omega)
  have h9 := hb 9 (by omega); have h10 := hb 10 (by omega); have h11 := hb 11 (by omega)
  interval_cases k <;> omega

theorem tagBytes_textOf (t : TagWord) (k : Nat) (h : k < 12) :
    (tagBytes (textOf t))[k] = byteAt t k h := by
  apply BitVec.eq_of_toNat_eq
  rw [tagByte_toNat, byteAt_toNat]
  simp only [textOf, Vector.getElem_ofFn, hexval_hexDigit, readBits_toNat]
  interval_cases k <;> omega

/-- One base-256 digit of a number: the quotient before is the quotient after and the digit. -/
theorem digit256 (n k : Nat) : n / 2 ^ k = n / 2 ^ (k + 8) * 256 + n / 2 ^ k % 256 := by
  rw [Nat.pow_add, ← Nat.div_div_eq_div_mul]; omega

/-- A number below `2^96` is its twelve base-256 digits. -/
theorem twelve_digits (n : Nat) (h : n < 2 ^ 96) :
    n / 2 ^ 88 % 256 * 256 ^ 11 + n / 2 ^ 80 % 256 * 256 ^ 10 + n / 2 ^ 72 % 256 * 256 ^ 9 +
      n / 2 ^ 64 % 256 * 256 ^ 8 + n / 2 ^ 56 % 256 * 256 ^ 7 + n / 2 ^ 48 % 256 * 256 ^ 6 +
      n / 2 ^ 40 % 256 * 256 ^ 5 + n / 2 ^ 32 % 256 * 256 ^ 4 + n / 2 ^ 24 % 256 * 256 ^ 3 +
      n / 2 ^ 16 % 256 * 256 ^ 2 + n / 2 ^ 8 % 256 * 256 + n / 2 ^ 0 % 256 = n := by
  have e0 := digit256 n 0; have e1 := digit256 n 8; have e2 := digit256 n 16
  have e3 := digit256 n 24; have e4 := digit256 n 32; have e5 := digit256 n 40
  have e6 := digit256 n 48; have e7 := digit256 n 56; have e8 := digit256 n 64
  have e9 := digit256 n 72; have e10 := digit256 n 80; have e11 := digit256 n 88
  have z : n / 2 ^ (88 + 8) = 0 := Nat.div_eq_of_lt h
  have u : n / 2 ^ 0 = n := by simp
  simp only [Nat.reduceAdd] at e0 e1 e2 e3 e4 e5 e6 e7 e8 e9 e10 e11 z
  generalize n / 2 ^ 0 % 256 = d0 at *; generalize n / 2 ^ 8 % 256 = d1 at *
  generalize n / 2 ^ 16 % 256 = d2 at *; generalize n / 2 ^ 24 % 256 = d3 at *
  generalize n / 2 ^ 32 % 256 = d4 at *; generalize n / 2 ^ 40 % 256 = d5 at *
  generalize n / 2 ^ 48 % 256 = d6 at *; generalize n / 2 ^ 56 % 256 = d7 at *
  generalize n / 2 ^ 64 % 256 = d8 at *; generalize n / 2 ^ 72 % 256 = d9 at *
  generalize n / 2 ^ 80 % 256 = d10 at *; generalize n / 2 ^ 88 % 256 = d11 at *
  generalize n / 2 ^ 96 = q12 at *; generalize n / 2 ^ 88 = q11 at *
  generalize n / 2 ^ 80 = q10 at *; generalize n / 2 ^ 72 = q9 at *
  generalize n / 2 ^ 64 = q8 at *; generalize n / 2 ^ 56 = q7 at *
  generalize n / 2 ^ 48 = q6 at *; generalize n / 2 ^ 40 = q5 at *
  generalize n / 2 ^ 32 = q4 at *; generalize n / 2 ^ 24 = q3 at *
  generalize n / 2 ^ 16 = q2 at *; generalize n / 2 ^ 8 = q1 at *
  generalize n / 2 ^ 0 = q0 at *
  omega

/-- The text of a word spells that word. -/
@[simp] theorem tagWord_textOf (t : TagWord) : tagWord (textOf t) = t := by
  apply BitVec.eq_of_toNat_eq
  rw [tagWord_toNat]
  simp only [tagBytes_textOf, byteAt_toNat]
  exact twelve_digits t.toNat t.isLt

/-- A text is decoded by its word. -/
theorem decode_textOf (c : Config) (t : TagWord) : decode c (textOf t) = decodeTag c t := by
  simp [decode]

/-- The table's lookup, by its keys. -/
theorem ptable_key (f : Format) : ptable f.key = some f := by cases f <;> rfl

theorem ptable_eq_some : ∀ (p : Byte) (f : Format), ptable p = some f → p = f.key := by
  intro p f h
  unfold ptable at h
  split_ifs at h <;> cases h <;> assumption

end Sys2Proof
end

