-- ==== Sys2Proof/Laws/Fields.lean ====
section
/-! SUPPORT. The serial pipeline and the image of a success, in closed form. -/

namespace Sys2Proof.Machine

/-- What the four operations of Step 8 leave (44_serial_number.md R131 to R134): the last four bytes of
the scratch. -/
theorem ser32_toNat (header : Byte) (tail : Vector Byte 5) :
    (ser32 header tail).toNat =
      tail[1].toNat * 2 ^ 24 + tail[2].toNat * 2 ^ 16 + tail[3].toNat * 2 ^ 8 + tail[4].toNat := by
  have h1 := tail[1].isLt; have h2 := tail[2].isLt
  have h3 := tail[3].isLt; have h4 := tail[4].isLt
  simp only [ser32, reinterpreted, reversed, substituted, Vector.getElem_ofFn, BitVec.toNat_ofNat]
  simp
  omega

theorem tailBytes_toNat (x : BitVec 40) (k : Nat) (h : k < 5) :
    (tailBytes x)[k].toNat = x.toNat / 2 ^ (8 * (4 - k)) % 2 ^ 8 := by
  simp [tailBytes, BitVec.extractLsb'_toNat, Nat.shiftRight_eq_div_pow]

/-- The as-implemented serial number of a 38-bit serial field. -/
theorem ser32_tailBytes (header : Byte) (hi : BitVec 2) (ser : BitVec 38) :
    ser32 header (tailBytes (hi ++ ser)) = ser.setWidth 32 := by
  apply BitVec.eq_of_toNat_eq
  rw [ser32_toNat]
  simp only [tailBytes_toNat, append_toNat, BitVec.toNat_setWidth]
  have := ser.isLt
  omega

/-- A completed decode writes the success image with the selected serial number. -/
theorem completeDecode_eq (fmt : Format) (filter : BitVec 3) (cp : BitVec 40) (ir : BitVec 24)
    (ser : BitVec 38) (s : State) :
    completeDecode fmt filter cp ir ser s =
      respond (okImage s.config fmt (filterValue filter) cp ir
        (serialOf s.config.serialMode (ser.setWidth 32) ser)) s := by
  simp only [completeDecode, ser32_tailBytes]

theorem filterValue_toNat (filter : BitVec 3) : (filterValue filter).toNat = 32 * filter.toNat := by
  rw [filterValue, append_toNat, BitVec.toNat_ofNat]
  omega

end Sys2Proof.Machine
end

