-- ==== Sys2Proof/Laws/State.lean ====
section
/-! SUPPORT. One lemma for each field of State after each named update (Machine/Ops.lean), so that no
later proof unfolds a record update. -/

namespace Sys2Proof.Machine

section
variable (r : Response) (s : State) (rest : List HostOp) (req : Request) (nbits w : Nat)

@[simp] theorem putResponse_config : (putResponse r s).config = s.config := rfl
@[simp] theorem putResponse_respValid : (putResponse r s).respValid = true := rfl
@[simp] theorem putResponse_resp : (putResponse r s).resp = r := rfl
@[simp] theorem putResponse_presented : (putResponse r s).presented = none := rfl
@[simp] theorem putResponse_hostOps : (putResponse r s).hostOps = s.hostOps := rfl
@[simp] theorem putResponse_collected : (putResponse r s).collected = s.collected := rfl
@[simp] theorem putResponse_draws : (putResponse r s).draws = s.draws := rfl

@[simp] theorem withHostOps_config : (withHostOps rest s).config = s.config := rfl
@[simp] theorem withHostOps_respValid : (withHostOps rest s).respValid = s.respValid := rfl
@[simp] theorem withHostOps_resp : (withHostOps rest s).resp = s.resp := rfl
@[simp] theorem withHostOps_presented : (withHostOps rest s).presented = s.presented := rfl
@[simp] theorem withHostOps_hostOps : (withHostOps rest s).hostOps = rest := rfl
@[simp] theorem withHostOps_collected : (withHostOps rest s).collected = s.collected := rfl
@[simp] theorem withHostOps_draws : (withHostOps rest s).draws = s.draws := rfl

@[simp] theorem applyReset_config : (applyReset s).config = s.config := rfl
@[simp] theorem applyReset_respValid : (applyReset s).respValid = false := rfl
@[simp] theorem applyReset_resp : (applyReset s).resp = Config.freeResponse s.draws := rfl
@[simp] theorem applyReset_presented : (applyReset s).presented = none := rfl
@[simp] theorem applyReset_hostOps : (applyReset s).hostOps = s.hostOps := rfl
@[simp] theorem applyReset_collected : (applyReset s).collected = s.collected := rfl
@[simp] theorem applyReset_draws : (applyReset s).draws = s.draws + 1 := rfl

@[simp] theorem withFetchWord_config : (s.withFetchWord nbits w).config = s.config := rfl
@[simp] theorem withFetchWord_respValid : (s.withFetchWord nbits w).respValid = false := rfl
@[simp] theorem withFetchWord_resp : (s.withFetchWord nbits w).resp = s.resp := rfl
@[simp] theorem withFetchWord_presented : (s.withFetchWord nbits w).presented = none := rfl
@[simp] theorem withFetchWord_hostOps :
    (s.withFetchWord nbits w).hostOps = .submit (tableRequest nbits w) :: s.hostOps := rfl
@[simp] theorem withFetchWord_collected : (s.withFetchWord nbits w).collected = s.collected := rfl
@[simp] theorem withFetchWord_draws : (s.withFetchWord nbits w).draws = s.draws := rfl

/-- Everything presenting can do. -/
theorem present_cases :
    (s.presented = none ∧ present req s = { s with presented := some req }) ∨
    (s.presented = some req ∧ present req s = s) ∨
    (∃ old, s.presented = some old ∧ req ≠ old ∧
      present req s = { s with presented := some (Config.freeRequest s.draws), draws := s.draws + 1 }) := by
  rcases h : s.presented with _ | old
  · exact .inl ⟨rfl, by simp [present, h]⟩
  · by_cases e : req = old
    · subst e; exact .inr (.inl ⟨rfl, by simp [present, h]⟩)
    · exact .inr (.inr ⟨old, rfl, e, by simp [present, h, e]⟩)

@[simp] theorem present_config : (present req s).config = s.config := by
  rcases present_cases s req with ⟨_, e⟩ | ⟨_, e⟩ | ⟨_, _, _, e⟩ <;> rw [e]
@[simp] theorem present_respValid : (present req s).respValid = s.respValid := by
  rcases present_cases s req with ⟨_, e⟩ | ⟨_, e⟩ | ⟨_, _, _, e⟩ <;> rw [e]
@[simp] theorem present_resp : (present req s).resp = s.resp := by
  rcases present_cases s req with ⟨_, e⟩ | ⟨_, e⟩ | ⟨_, _, _, e⟩ <;> rw [e]
@[simp] theorem present_hostOps : (present req s).hostOps = s.hostOps := by
  rcases present_cases s req with ⟨_, e⟩ | ⟨_, e⟩ | ⟨_, _, _, e⟩ <;> rw [e]
@[simp] theorem present_collected : (present req s).collected = s.collected := by
  rcases present_cases s req with ⟨_, e⟩ | ⟨_, e⟩ | ⟨_, _, _, e⟩ <;> rw [e]

/-- After presenting, some request is at the port. -/
theorem present_presented : ∃ x, (present req s).presented = some x := by
  rcases present_cases s req with ⟨_, e⟩ | ⟨h, e⟩ | ⟨_, _, _, e⟩ <;> rw [e]
  · exact ⟨_, rfl⟩
  · exact ⟨_, h⟩
  · exact ⟨_, rfl⟩

end

end Sys2Proof.Machine
end

