-- ==== Sys2Proof/Laws/Ops.lean ====
section
/-! SUPPORT. For each shared operation, once, everything it can do. -/

namespace Sys2Proof.Machine

theorem respond_free (r : Response) (s : State) (h : s.respValid = false) :
    respond r s = .next (putResponse r s) := by simp [respond, h]

theorem respond_held (r : Response) (s : State) (h : s.respValid = true) :
    respond r s = .next s := by simp [respond, h]

/-- A response is written or the request waits; there is no third outcome. -/
theorem respond_cases (r : Response) (s : State) :
    (s.respValid = true ∧ respond r s = .next s) ∨
    (s.respValid = false ∧ respond r s = .next (putResponse r s)) := by
  cases h : s.respValid
  · exact .inr ⟨rfl, respond_free r s h⟩
  · exact .inl ⟨rfl, respond_held r s h⟩

theorem collect_held (s : State) (h : s.respValid = true) :
    collect s = .next { s with respValid := false, collected := s.collected ++ [s.resp] } := by
  simp [collect, h]

theorem collect_free (s : State) (h : s.respValid = false) :
    collect s = .refused .collectNotEnabled := by simp [collect, h]

theorem completeDecode_respond (fmt : Format) (filter : BitVec 3) (cp : BitVec 40) (ir : BitVec 24)
    (ser : BitVec 38) (c : Config) :
    ∃ R, ∀ s : State, s.config = c → completeDecode fmt filter cp ir ser s = respond R s :=
  ⟨okImage c fmt (filterValue filter) cp ir
      (serialOf c.serialMode (ser32 headerSgtin96 (tailBytes (ir.setWidth 2 ++ ser))) ser),
    by rintro s rfl; rfl⟩

theorem raiseError_respond (e : DecodeError) (c : Config) :
    ∃ R, ∀ s : State, s.config = c → raiseError e s = respond R s :=
  ⟨errorImage c e, by rintro s rfl; rfl⟩

/-- Every meaning is the writing of one response, which depends on the instruction and on the
configuration alone. -/
theorem exec_respond (i : Instr) (c : Config) :
    ∃ R, ∀ s : State, s.config = c → exec i s = respond R s := by
  cases i with
  | p0 f cp ir ser => exact completeDecode_respond .p0 f cp (ir.setWidth 24) ser c
  | p4 f cp ir ser => exact completeDecode_respond .p4 f (cp.setWidth 40) (ir.setWidth 24) ser c
  | p8 f cp ir ser => exact completeDecode_respond .p8 f (cp.setWidth 40) (ir.setWidth 24) ser c
  | p12 f cp ir ser => exact completeDecode_respond .p12 f (cp.setWidth 40) (ir.setWidth 24) ser c
  | p16 f cp ir ser => exact completeDecode_respond .p16 f (cp.setWidth 40) (ir.setWidth 24) ser c
  | p20 f cp ir ser => exact completeDecode_respond .p20 f (cp.setWidth 40) (ir.setWidth 24) ser c
  | p24 f cp ir ser => exact completeDecode_respond .p24 f (cp.setWidth 40) ir ser c
  | invalidPartition f rest => exact raiseError_respond (.invalidPartition 28#8) c
  | unsupportedHeader h rest => exact raiseError_respond (.unsupportedHeader h) c
  | malformedTag req => exact raiseError_respond .malformedTag c

end Sys2Proof.Machine
end

