-- ==== Sys2Proof/Laws/Step.lean ====
section
/-! SUPPORT. What a step can do, said once. -/

namespace Sys2Proof.Machine

theorem ready_eq_true (s : State) :
    ready s = true ↔ ∃ req, s.presented = some req ∧ s.respValid = false := by
  cases h : s.presented <;> simp [ready, h]

theorem serve_some (s : State) (req : Request) (h : s.presented = some req) :
    serve s = exec (decode s.config req) s := by simp [serve, h]

/-- The five things a step can be: a reset, the acceptance of the request that waited, an idle step,
the host's SUBMIT, the host's COLLECT. -/
theorem step_cases (s : State) :
    (∃ rest, s.hostOps = .reset :: rest ∧ step s = .next (applyReset (withHostOps rest s))) ∨
    (∃ req, s.presented = some req ∧ s.respValid = false ∧ s.hostOps.head? ≠ some .reset ∧
      step s = exec (decode s.config req) s) ∨
    (ready s = false ∧ s.hostOps = [] ∧ step s = .next s) ∨
    (∃ req rest x, ready s = false ∧ s.hostOps = .submit req :: rest ∧
      (present req (withHostOps rest s)).presented = some x ∧
      step s = exec (decode s.config x) (present req (withHostOps rest s))) ∨
    (∃ rest, ready s = false ∧ s.hostOps = .collect :: rest ∧
      step s = collect (withHostOps rest s)) := by
  by_cases hr : ready s = true
  · obtain ⟨req, hp, hv⟩ := (ready_eq_true s).1 hr
    rcases ho : s.hostOps with _ | ⟨_ | q | _, rest⟩
    · exact .inr (.inl ⟨req, hp, hv, by simp, by simp [step, ho, hr, serve_some s req hp]⟩)
    · exact .inl ⟨rest, rfl, by simp [step, hostStep, ho]⟩
    · exact .inr (.inl ⟨req, hp, hv, by simp, by simp [step, ho, hr, serve_some s req hp]⟩)
    · exact .inr (.inl ⟨req, hp, hv, by simp, by simp [step, ho, hr, serve_some s req hp]⟩)
  · have hr' : ready s = false := by simpa using hr
    rcases ho : s.hostOps with _ | ⟨_ | q | _, rest⟩
    · exact .inr (.inr (.inl ⟨hr', rfl, by simp [step, hostStep, ho, hr']⟩))
    · exact .inl ⟨rest, rfl, by simp [step, hostStep, ho]⟩
    · obtain ⟨x, hx⟩ := present_presented (withHostOps rest s) q
      refine .inr (.inr (.inr (.inl ⟨q, rest, x, hr', rfl, hx, ?_⟩)))
      simp [step, hostStep, ho, hr', serve_some _ x hx]
    · exact .inr (.inr (.inr (.inr ⟨rest, hr', rfl, by simp [step, hostStep, ho, hr']⟩)))

end Sys2Proof.Machine
end

