-- ==== Sys2Proof/Tests/Slice0.lean ====
section
/-! SUPPORT. Small tests, with expected values from 95_test_vectors.md (the vector is named at each
test), the refusals of the well-formedness checks, and for each statement with hypotheses a state and
operands that meet them. -/

namespace Sys2Proof.Tests

open Sys2Proof.Machine Sys2Proof.Claims

/-! ### Helpers -/

def hw : Config := Config.thisHardware

/-- The alternate mask of 42_header_filter_partition.md R90. -/
def alt : Config := { pmask := .x18, serialMode := .parity }

def corr : Config := { pmask := .x1C, serialMode := .corrected }

/-- A state in which no response is held, with concrete contents everywhere. -/
def idle (c : Config) : State where
  config := c
  respValid := false
  resp := errorImage c .malformedTag
  presented := none
  hostOps := []
  collected := []
  draws := 0

/-- The same with a response held. -/
def held (c : Config) (r : Response) : State := { idle c with respValid := true, resp := r }

/-- The response a step leaves held. -/
def held? : Host.Outcome State Fault Refusal → Option Response
  | .next t => if t.respValid then some t.resp else none
  | .fault f => nomatch f
  | .refused _ => none

/-- The columns of the vector tables: status, err_value, cp, ir, serial, filter, partition, cpw, irw. -/
def columns (r : Response) : List Nat :=
  [r.status.toNat, r.errValue.toNat, r.companyPrefix.toNat, r.itemReference.toNat, r.serial.toNat,
    r.dbgFilter.toNat, r.dbgPartition.toNat, r.dbgCpw.toNat, r.dbgIrw.toNat]

/-- What a tag word does, decoded and run. -/
def run (c : Config) (w : Nat) : Option (List Nat) :=
  (held? (exec (decode c (textOf (BitVec.ofNat 96 w))) (idle c))).map columns

/-- The character codes of V1 (program PR1). -/
def codesV1 : List Byte :=
  [0x33, 0x30, 0x31, 0x39, 0x42, 0x39, 0x33, 0x36, 0x38, 0x41, 0x31, 0x30,
    0x41, 0x36, 0x43, 0x30, 0x32, 0x32, 0x45, 0x37, 0x36, 0x46, 0x46, 0x35]

/-- V23: V1 in lower case (program PR4). -/
def codesV23 : List Byte :=
  [0x33, 0x30, 0x31, 0x39, 0x62, 0x39, 0x33, 0x36, 0x38, 0x61, 0x31, 0x30,
    0x61, 0x36, 0x63, 0x30, 0x32, 0x32, 0x65, 0x37, 0x36, 0x66, 0x66, 0x35]

def v1 : Request := Request.ofCodes codesV1
def v23 : Request := Request.ofCodes codesV23
/-- V26: 23 characters. -/
def v26 : Request := Request.ofCodes (codesV1.take 23)
/-- V29: the last character is `G`. -/
def v29 : Request := Request.ofCodes (codesV1.take 23 ++ [0x47])
def v2 : Request := textOf 0x3089F8221B8D6B800E501E97#96
def v3 : Request := textOf 0x300048D159E26AEFEDCBA987#96
def v13 : Request := textOf 0x30FFFFFFFFFFFFFFFFFFFFFF#96
def v15 : Request := textOf 0x300400000000000000000000#96
def v17 : Request := textOf 0x360000000000000000000000#96

/-! ### Well-formedness refuses -/

theorem test_wf_p4_under_x18 : (Instr.p4 1 2 3 4).wf alt = false := by decide
theorem test_wf_p12_under_x18 : (Instr.p12 1 2 3 4).wf alt = false := by decide
theorem test_wf_p20_under_x18 : (Instr.p20 1 2 3 4).wf alt = false := by decide
theorem test_wf_invalid_partition_under_x18 : (Instr.invalidPartition 1 2).wf alt = false := by decide
theorem test_wf_header_48_is_supported : (Instr.unsupportedHeader 48 2).wf hw = false := by decide
theorem test_wf_a_tag_is_not_malformed : (Instr.malformedTag v1).wf hw = false := by decide

/-! ### Characters (table of section 2.4) -/

theorem test_hex_digits_at_the_boundaries :
    [0x2F#8, 0x3A#8, 0x40#8, 0x47#8, 0x60#8, 0x67#8, 0x00#8, 0x20#8, 0x78#8, 0x80#8, 0xFF#8].any isHex
      = false ∧
    [0x30#8, 0x39#8, 0x41#8, 0x46#8, 0x61#8, 0x66#8].map (fun c => (isHex c, (hexval c).toNat)) =
      [(true, 0), (true, 9), (true, 10), (true, 15), (true, 10), (true, 15)] := by decide

theorem test_first_digit_of_a_pair_is_high : (tagBytes v1)[2] = 0xB9#8 := by decide

/-! ### Decoding: words written out from the patterns of 30_encoding.md R50 -/

theorem test_decode_p0 : -- V3
    decodeTableWord 96
      0b00110000_000_000_0001001000110100010101100111100010011010_1011_10111111101101110010111010100110000111
      = some (.p0 0 0x123456789A#40 0xB#4 0x2FEDCBA987#38) := by decide

theorem test_decode_p4 : -- V4
    decodeTableWord 96
      0b00110000_001_001_1010101010101010101010101010101010101_0101010_00000000000000000000000000000000000001
      = some (.p4 1 91625968981#37 42#7 1#38) := by decide

theorem test_decode_p8 : -- V2
    decodeTableWord 96
      0b00110000_100_010_0111111000001000100001101110001101_0110101110_00000000001110010100000001111010010111
      = some (.p8 4 8457952141#34 430#10 240131735#38) := by decide

theorem test_decode_p12 : -- V6
    decodeTableWord 96
      0b00110000_011_011_111111111111111111111111111111_00000000000000_00000100100011010001010110011110001001
      = some (.p12 3 1073741823#30 0#14 4886718345#38) := by decide

theorem test_decode_p16 : -- V7
    decodeTableWord 96
      0b00110000_100_100_000000000000000000000000000_11111111111111111_01000000000000000000000000000000000000
      = some (.p16 4 0#27 131071#17 68719476736#38) := by decide

theorem test_decode_p20 : -- V8
    decodeTableWord 96
      0b00110000_101_101_100000000000000000000000_10000000000000000001_00000011111111111111111111111111111111
      = some (.p20 5 8388608#24 524289#20 4294967295#38) := by decide

theorem test_decode_p24 : -- V1
    decodeTableWord 96
      0b00110000_000_110_01101110010011011010_001010000100001010011011_00000000100010111001110110111111110101
      = some (.p24 0 451802#20 2638491#24 585592821#38) := by decide

theorem test_decode_invalid_partition : -- V14 with filter 5 and the last bit set
    decodeTableWord 96 (0b00110000_101_111 * 2 ^ 82 + 1) = some (.invalidPartition 5 1) := by decide

theorem test_decode_unsupported_header : -- V17 with the last bit set
    decodeTableWord 96 (0b00110110 * 2 ^ 88 + 1) = some (.unsupportedHeader 54 1) := by decide

theorem test_decode_malformed_tag : -- V28
    decodeTableWord 0 0 = some (.malformedTag (Request.ofCodes [])) := by decide

/-! ### Results -/

theorem test_p0_v3 :
    run hw 0x300048D159E26AEFEDCBA987 = some [0, 0, 78187493530, 11, 3989547399, 0, 0, 40, 4] := by decide
theorem test_p0_v3_corrected :
    run corr 0x300048D159E26AEFEDCBA987 = some [0, 0, 78187493530, 11, 205853010311, 0, 0, 40, 4] := by
  decide
theorem test_p4_v4 :
    run hw 0x3026AAAAAAAAAA8000000001 = some [0, 0, 91625968981, 42, 1, 32, 4, 37, 7] := by decide
theorem test_p4_v4_alternate_mask :
    run alt 0x3026AAAAAAAAAA8000000001 = some [0, 0, 733007751850, 10, 1, 32, 0, 40, 4] := by decide
theorem test_p8_v5 :
    run hw 0x304AAAAAAAAA557FFFFFFFFF = some [0, 0, 11453246122, 341, 4294967295, 64, 8, 34, 10] := by
  decide
theorem test_p8_v5_corrected :
    run corr 0x304AAAAAAAAA557FFFFFFFFF = some [0, 0, 11453246122, 341, 274877906943, 64, 8, 34, 10] := by
  decide
theorem test_p12_v6 :
    run hw 0x306FFFFFFFF0000123456789 = some [0, 0, 1073741823, 0, 591751049, 96, 12, 30, 14] := by decide
theorem test_p12_v6_alternate_mask :
    run alt 0x306FFFFFFFF0000123456789 = some [0, 0, 17179869168, 0, 591751049, 96, 8, 34, 10] := by
  decide
theorem test_p16_v7 :
    run hw 0x30900000007FFFD000000000 = some [0, 0, 0, 131071, 0, 128, 16, 27, 17] := by decide
theorem test_p16_v7_corrected :
    run corr 0x30900000007FFFD000000000 = some [0, 0, 0, 131071, 68719476736, 128, 16, 27, 17] := by decide
theorem test_p20_v8 :
    run hw 0x30B6000002000040FFFFFFFF = some [0, 0, 8388608, 524289, 4294967295, 160, 20, 24, 20] := by
  decide
theorem test_p20_v8_alternate_mask :
    run alt 0x30B6000002000040FFFFFFFF = some [0, 0, 67108868, 1, 4294967295, 160, 16, 27, 17] := by decide
theorem test_p24_v9 :
    run hw 0x30FBFFFFFFFFFFEAAAAAAAAA = some [0, 0, 1048575, 16777215, 2863311530, 224, 24, 20, 24] := by
  decide
theorem test_p24_v39_corrected :
    run corr 0x30180000000000BF00000001 = some [0, 0, 0, 2, 270582939649, 0, 24, 20, 24] := by decide
theorem test_invalid_partition_v13 :
    run hw 0x30FFFFFFFFFFFFFFFFFFFFFF = some [3, 28, 0, 0, 0, 0, 0, 0, 0] := by decide
theorem test_v13_decodes_under_the_alternate_mask :
    run alt 0x30FFFFFFFFFFFFFFFFFFFFFF = some [0, 0, 1048575, 16777215, 4294967295, 224, 24, 20, 24] := by
  decide
theorem test_unsupported_header_v22 :
    run hw 0x36FFFFFFFFFFFFFFFFFFFFFF = some [2, 54, 0, 0, 0, 0, 0, 0, 0] := by decide
theorem test_unsupported_header_v19 :
    run hw 0xFF0000000000000000000000 = some [2, 255, 0, 0, 0, 0, 0, 0, 0] := by decide
theorem test_malformed_v26_and_v29 :
    (held? (exec (decode hw v26) (idle hw))).map columns = some [1, 0, 0, 0, 0, 0, 0, 0, 0] ∧
    (held? (exec (decode hw v29) (idle hw))).map columns = some [1, 0, 0, 0, 0, 0, 0, 0, 0] := by decide
theorem test_malformed_v32 : -- `3G00...`: Step 1 before Step 3
    (held? (exec (decode hw (Request.ofCodes ([0x33, 0x47] ++ List.replicate 22 0x30))) (idle hw))).map
      columns = some [1, 0, 0, 0, 0, 0, 0, 0, 0] := by decide

/-! ### Serial digits and the host's reading -/

theorem test_digit_lanes : -- table of section 2.5
    decimalLanes 0 = Vector.replicate 12 0#4 ∧ digitCount 0 = 1 ∧
    decimalLanes 4294967295 = #v[4, 2, 9, 4, 9, 6, 7, 2, 9, 5, 0, 0] ∧ digitCount 4294967295 = 10 ∧
    decimalLanes 205853010311 = #v[2, 0, 5, 8, 5, 3, 0, 1, 0, 3, 1, 1] ∧
    digitCount 274877906943 = 12 := by decide

theorem test_step8_trace_v35 : -- B[7..11] = FF 22 E7 6F F5
    substituted 0x30#8 #v[0xFF#8, 0x22#8, 0xE7#8, 0x6F#8, 0xF5#8] =
      #v[0x3F#8, 0x22#8, 0xE7#8, 0x6F#8, 0xF5#8] ∧
    reversed #v[0x3F#8, 0x22#8, 0xE7#8, 0x6F#8, 0xF5#8] = #v[0xF5#8, 0x6F#8, 0xE7#8, 0x22#8, 0x3F#8] ∧
    reinterpreted #v[0xF5#8, 0x6F#8, 0xE7#8, 0x22#8, 0x3F#8] = 585592821#32 := by decide

theorem test_host_reads_v1 : -- program PR1: the string is "585592821"
    (match readResponse (decodeImage hw v1) with
      | .ok x => some (x.companyPrefix.toNat, x.itemReference.toNat, x.serialNumber.map BitVec.toNat)
      | .error _ => none) =
    some (451802, 2638491, [0x35, 0x38, 0x35, 0x35, 0x39, 0x32, 0x38, 0x32, 0x31]) := by decide

/-! ### Single steps -/

theorem test_submit_v1_after_reset : -- program PR1, step 2
    (held? (step { State.reset with hostOps := [.submit v1] })).map columns =
      some [0, 0, 451802, 2638491, 585592821, 0, 24, 20, 24] := by decide

theorem test_submit_waits_while_held : -- program PR5, step 3
    (match step { held hw (decodeImage hw v2) with hostOps := [.submit v17] } with
      | .next t => some (t.respValid, t.presented, columns t.resp)
      | _ => none) =
    some (true, some v17, [0, 0, 8457952141, 430, 240131735, 128, 8, 34, 10]) := by decide

theorem test_collect_delivers : -- program PR5, step 4
    (match step { held hw (decodeImage hw v2) with hostOps := [.collect], presented := some v17 } with
      | .next t => some (t.respValid, t.presented, t.collected.map columns)
      | _ => none) =
    some (false, some v17, [[0, 0, 8457952141, 430, 240131735, 128, 8, 34, 10]]) := by decide

theorem test_waiting_request_is_served : -- program PR5, step 5
    (held? (step { idle hw with presented := some v17, hostOps := [.collect] })).map columns =
      some [2, 54, 0, 0, 0, 0, 0, 0, 0] := by decide

theorem test_reset_loses_the_response : -- program PR4, step 7
    (match step { held hw (decodeImage hw v1) with hostOps := [.reset, .submit v1] } with
      | .next t => some (t.respValid, t.presented, t.hostOps)
      | _ => none) = some (false, none, [.submit v1]) := by decide

theorem test_fetch_word_runs_the_row :
    (held? (step (State.reset.withFetchWord 96 0x301C00000000000000000000))).map columns =
      some [3, 28, 0, 0, 0, 0, 0, 0, 0] := by decide

/-! ### Witnesses: the hypotheses of the statements are met -/

theorem witness_DecodeOfEncode :
    (Instr.p4 7 0 127 1).wf hw = true ∧ (Instr.p24 7 0 1 1).wf alt = true ∧
    (Instr.invalidPartition 7 1).wf hw = true ∧ (Instr.unsupportedHeader 255 1).wf alt = true ∧
    (Instr.malformedTag v29).wf hw = true := by decide

theorem witness_EncodeOfDecode : hw.pmask = .x1C ∧ v1.isTag = true ∧ v23.isTag = true := by decide

/-- Each of the three clauses of MatchAndMaskSelectTheRow has a word. -/
theorem witness_MatchAndMask :
    hw.pmask = .x1C ∧ (tagWord v2 &&& rowMask = rowMatch .p8) ∧
    (tagWord v13 &&& rowMask = 0x301C00000000000000000000#96) ∧
    (tagWord v17).toNat / 2 ^ 88 ≠ 48 := by decide

/-- The bounds of a read, and the table of section 2.2 on V1. -/
theorem witness_ReadBits :
    (0 + 96 ≤ 96 ∧ 95 + 1 ≤ 96 ∧ 96 + 0 ≤ 96) ∧
    (readBits (tagWord v1) 34 24).toNat = 2638491 ∧ (readBits (tagWord v1) 95 1).toNat = 1 ∧
    (readBits (tagWord v1) 40 0).toNat = 0 ∧ (readBits (tagWord v1) 14 44).toNat = 7579982381723 := by
  decide

theorem witness_BytesBits : (0 < 12 ∧ 0 < 8) ∧ (11 < 12 ∧ 7 < 8) := by decide

theorem witness_WrongLength :
    ([] : List Byte).length ≠ 24 ∧ (codesV1.take 23).length ≠ 24 ∧ (codesV1 ++ [0x30]).length ≠ 24 ∧
    (idle hw).respValid = false := by decide

theorem witness_NonHex :
    v29.len = 24 ∧
    ¬((0x30 ≤ v29.ch[23].toNat ∧ v29.ch[23].toNat ≤ 0x39) ∨
      (0x41 ≤ v29.ch[23].toNat ∧ v29.ch[23].toNat ≤ 0x46) ∨
      (0x61 ≤ v29.ch[23].toNat ∧ v29.ch[23].toNat ≤ 0x66)) ∧
    (idle hw).respValid = false := by decide

theorem witness_LetterCase :
    v1.isTag = true ∧ v23.isTag = true ∧ v1 ≠ v23 ∧
    (∀ i : Fin 24, v1.ch[i] = v23.ch[i] ∨ v1.ch[i] ^^^ 0x20#8 = v23.ch[i]) := by decide

theorem witness_OtherHeaders :
    v17.isTag = true ∧ (tagBytes v17)[0] ≠ 48#8 ∧ (idle hw).respValid = false := by decide

theorem witness_EveryPartitionRow :
    v13.isTag = true ∧ (tagBytes v13)[0] = 48#8 ∧ (idle hw).config.pmask = .x1C ∧
    (tagBytes v13)[1] &&& 0x1C#8 = 28#8 ∧ (idle hw).respValid = false := by decide

/-- V15 and the tag of zeros differ in bit 13 only; the masks disagree on V15 and agree on V1. -/
theorem witness_AlternateMask :
    v15.isTag = true ∧ (textOf 0x300000000000000000000000#96).isTag = true ∧
    tagWord (textOf 0x300000000000000000000000#96) ||| (1#96 <<< 82) =
      tagWord v15 ||| (1#96 <<< 82) ∧
    (tagBytes v15)[0] = 48#8 ∧ (tagWord v15).getMsbD 13 = true ∧
    (tagWord v1).getMsbD 13 = false := by decide

theorem witness_FieldsAreShiftsAndMasks :
    v1.isTag = true ∧ (idle hw).config.pmask = .x1C ∧ tagWord v1 &&& rowMask = rowMatch .p24 ∧
    (idle hw).respValid = false := by decide

theorem witness_FieldsSplit : 0 ≤ 44 ∧ 44 ≤ 44 ∧ (40 ≤ 44 ∧ 40 = Format.p0.cpw) ∧
    (20 ≤ 44 ∧ 20 = Format.p24.cpw) := by decide

theorem witness_CursorEnds :
    ∃ x, decodeSteps hw v1 = .ok x ∧ x.cur7.toNat = 34 ∧ x.curEnd.toNat = 58 :=
  ⟨fieldSteps hw v1 0 24 20, by decide⟩

/-- V1 and V47. -/
theorem witness_FilterReaches :
    v1.isTag = true ∧ (textOf 0x30F9B9368A10A6C022E76FF5#96).isTag = true ∧
    tagWord v1 ||| (7#96 <<< 85) = tagWord (textOf 0x30F9B9368A10A6C022E76FF5#96) ||| (7#96 <<< 85) ∧
    (idle hw).respValid = false := by decide

theorem witness_SerialModeSelects :
    (∃ R, exec (decode hw v1) (idle hw) = .next (accepted (idle hw) R) ∧ R.status = 0) ∧
    (∃ R, exec (decode corr v1) (idle corr) = .next (accepted (idle corr) R) ∧ R.status = 0) ∧
    (idle hw).config.serialMode = .parity ∧ (idle corr).config.serialMode = .corrected ∧
    (idle hw).respValid = false ∧ (idle corr).respValid = false :=
  ⟨⟨decodeImage hw v1, rfl, by decide⟩, ⟨decodeImage corr v1, rfl, by decide⟩, by decide⟩

/-- V1 and V35. -/
theorem witness_ParityIgnores :
    (idle hw).config.serialMode = .parity ∧ v1.isTag = true ∧
    (textOf 0x3019B9368A10A6FF22E76FF5#96).isTag = true ∧
    tagWord v1 ||| (63#96 <<< 32) = tagWord (textOf 0x3019B9368A10A6FF22E76FF5#96) ||| (63#96 <<< 32) := by
  decide

theorem witness_DigitLanes : 0 < 2 ^ 38 ∧ 274877906943 < 2 ^ 38 := by decide

/-- No response held, for a request of each status; two states of one configuration. -/
theorem witness_NoResponseHeld :
    (idle hw).respValid = false ∧ { idle hw with draws := 3 }.respValid = false ∧
    (idle hw).config = { idle hw with draws := 3 }.config ∧
    [v1, v29, v17, v13].map (fun r => (decodeImage hw r).status.toNat) = [0, 1, 2, 3] := by decide

theorem witness_Frame :
    (∃ t, exec (decode hw v1) (idle hw) = .next t) ∧ (idle hw).respValid = false ∧
    (∃ t, exec (decode hw v1) (held hw (decodeImage hw v2)) = .next t) ∧
    (held hw (decodeImage hw v2)).respValid = true :=
  ⟨⟨_, rfl⟩, rfl, ⟨_, rfl⟩, rfl⟩

theorem witness_StepRuns :
    (({ idle hw with presented := some v1, hostOps := [.collect] } : State).presented = some v1 ∧
      ({ idle hw with presented := some v1, hostOps := [.collect] } : State).respValid = false ∧
      ∀ rest, ({ idle hw with presented := some v1, hostOps := [.collect] } : State).hostOps ≠
        .reset :: rest) ∧
    (({ idle hw with hostOps := [.submit v1] } : State).hostOps = .submit v1 :: [] ∧
      ({ idle hw with hostOps := [.submit v1] } : State).presented = none) ∧
    ((idle hw).config = Config.thisHardware ∧
      decodeTableWord 96 0x360000000000000000000000 = some (.unsupportedHeader 54 0)) :=
  ⟨⟨rfl, rfl, fun _ h => by cases h⟩, ⟨rfl, rfl⟩, by decide⟩

theorem witness_Submit :
    ({ idle hw with hostOps := [.submit v1] } : State).hostOps = .submit v1 :: [] ∧
    ({ idle hw with hostOps := [.submit v1] } : State).presented = none ∧
    ({ idle hw with hostOps := [.submit v1] } : State).respValid = false ∧
    ({ held hw (decodeImage hw v2) with hostOps := [.submit v1] } : State).hostOps = .submit v1 :: [] ∧
    ({ held hw (decodeImage hw v2) with hostOps := [.submit v1] } : State).presented = none ∧
    ({ held hw (decodeImage hw v2) with hostOps := [.submit v1] } : State).respValid = true := by decide

/-- For CollectHandsOverTheResponse and WaitingRequestIsServedAfterCollect. -/
theorem witness_Collect :
    let s : State := { held hw (decodeImage hw v2) with hostOps := [.collect], presented := some v17 }
    s.presented = some v17 ∧ s.hostOps = .collect :: [] ∧ s.respValid = true ∧
      ∀ rest', ([] : List HostOp) ≠ .reset :: rest' :=
  ⟨rfl, rfl, rfl, fun _ h => by cases h⟩

/-- For ResetClearsRespValid and ResetDoesNotChangeLaterResponses. -/
theorem witness_Reset :
    let s : State := { held hw (decodeImage hw v2) with hostOps := [.reset, .submit v1] }
    let s' : State := { idle hw with hostOps := [.submit v1] }
    s.hostOps = .reset :: .submit v1 :: [] ∧ s'.config = s.config ∧ s'.hostOps = .submit v1 :: [] ∧
      s'.presented = none ∧ s'.respValid = false := by decide

/-- For HeldResponseIsNotOverwritten, StepKeepsConfigurationAndCopies and the invariants: a held
response, a step to a state in which it still is held and one in which it is collected. -/
theorem witness_StepOfAHeldResponse :
    let s : State := { held hw (decodeImage hw v2) with hostOps := [.submit v1] }
    let s' : State := { held hw (decodeImage hw v2) with hostOps := [.collect] }
    s.respValid = true ∧ s.inv = true ∧ s'.respValid = true ∧ s'.inv = true ∧
      (∃ t, step s = .next t ∧ t.respValid = true) ∧ (∃ t, step s' = .next t ∧ t.respValid = false) :=
  ⟨rfl, by decide, rfl, by decide, ⟨_, rfl, rfl⟩, ⟨_, rfl, rfl⟩⟩

/-- A SUBMIT meets a waiting request: the same one again, and another one. -/
theorem witness_PresentingAgain :
    let s : State := { held hw (decodeImage hw v2) with hostOps := [.submit v17], presented := some v17 }
    let s' : State := { held hw (decodeImage hw v2) with hostOps := [.submit v1], presented := some v17 }
    s.presented = some v17 ∧ s.respValid = true ∧ s.hostOps = .submit v17 :: [] ∧
      s'.presented = some v17 ∧ s'.respValid = true ∧ s'.hostOps = .submit v1 :: [] ∧ v1 ≠ v17 := by decide

theorem witness_FromDecodes :
    FromDecodes { held hw (decodeImage hw v2) with hostOps := [.collect], collected := [decodeImage hw v13] } ∧
    ∃ t, step { held hw (decodeImage hw v2) with hostOps := [.collect], collected := [decodeImage hw v13] }
      = .next t :=
  ⟨⟨fun _ => ⟨v2, rfl⟩, fun _ h => by cases h with
      | head => exact ⟨v13, rfl⟩
      | tail _ h => cases h⟩, ⟨_, rfl⟩⟩

/-- The COLLECT the model refuses: the second case of StepStopsOnlyAtACollectOfNothing. -/
theorem witness_StepStops :
    step { idle hw with hostOps := [.collect] } = .refused .collectNotEnabled := rfl

/-- The batch of program PR2. -/
theorem witness_Batch :
    let s : State := { idle hw with hostOps := batchOps [v1, v26, v17, v13, v2] ++ [.reset] }
    s.respValid = false ∧ s.presented = none ∧
      s.hostOps = batchOps [v1, v26, v17, v13, v2] ++ [.reset] := by decide

end Sys2Proof.Tests
end

section
/-! PROOFS. 20_memory.md: the three forms of `ReadBits`. -/

namespace Sys2Proof

/-- The low `w` bits of a number, weighted from the most significant one down, sum to its remainder. -/
theorem sum_testBit_eq_mod_two_pow (n w : Nat) :
    ((List.range w).map fun j => (n.testBit (w - 1 - j)).toNat * 2 ^ (w - 1 - j)).sum =
      n % 2 ^ w := by
  induction w with
  | zero => simp [Nat.mod_one]
  | succ w ih =>
    have shift : ∀ j, w + 1 - 1 - (j + 1) = w - 1 - j := by omega
    simp only [List.range_succ_eq_map, List.map_cons, List.map_map, List.sum_cons,
      Function.comp_def, Nat.succ_eq_add_one, shift, ih]
    rw [Nat.mod_pow_succ, ← Nat.toNat_testBit, Nat.mul_comm (2 ^ w), Nat.add_comm]
    rfl

/-- The stream bit at `off + j` is bit `w - 1 - j` of the word shifted down to the read's last bit. -/
theorem getMsbD_eq_testBit_shifted (t : TagWord) {off w j : Nat} (h : off + w ≤ 96) (hj : j < w) :
    t.getMsbD (off + j) = (t.toNat / 2 ^ (96 - off - w)).testBit (w - 1 - j) := by
  have inside : off + j < 96 := by omega
  have index : 96 - 1 - (off + j) = w - 1 - j + (96 - off - w) := by omega
  rw [BitVec.getMsbD, decide_eq_true inside, Bool.true_and, index, Nat.testBit_div_two_pow]
  rfl

/-- 20_memory.md R33, first form: a read is the weighted sum of its stream bits. -/
theorem readBits_toNat_eq_sum (t : TagWord) (off w : Nat) (h : off + w ≤ 96) :
    (readBits t off w h).toNat =
      ((List.range w).map fun j => (t.getMsbD (off + j)).toNat * 2 ^ (w - 1 - j)).sum := by
  rw [readBits_toNat, ← sum_testBit_eq_mod_two_pow]
  congr 1
  refine List.map_congr_left fun j hj => ?_
  rw [getMsbD_eq_testBit_shifted t h (List.mem_range.mp hj)]

/-- 20_memory.md R33, second form: a read of at least one bit is the slice `T[95-off : 96-off-w]`. -/
theorem readBits_toNat_eq_slice (t : TagWord) (off w : Nat) (h : off + w ≤ 96) (hw : 1 ≤ w) :
    (readBits t off w h).toNat =
      t.toNat / 2 ^ (96 - off - w) % 2 ^ ((95 - off) - (96 - off - w) + 1) := by
  have width : (95 - off) - (96 - off - w) + 1 = w := by omega
  rw [width, readBits_toNat]

/-- 20_memory.md R33, third form: a read is the word shifted down and masked. -/
theorem readBits_toNat_eq_shift_mask (t : TagWord) (off w : Nat) (h : off + w ≤ 96) :
    (readBits t off w h).toNat = (t.toNat >>> (96 - off - w)) &&& (2 ^ w - 1) := by
  rw [Nat.and_two_pow_sub_one_eq_mod, Nat.shiftRight_eq_div_pow, readBits_toNat]

/-- Settles O5: one lemma per form of R33, each by the read's value as division and remainder; the
sum is by induction on the width. -/
theorem readBitsFormsAgree : Obligations.ReadBitsFormsAgree := by
  intro t off w h
  refine ⟨readBits_toNat_eq_sum t off w h, readBits_toNat_eq_slice t off w h,
    readBits_toNat_eq_shift_mask t off w h, (readBits t off w h).isLt, ?_⟩
  rintro rfl
  rw [readBits_toNat, pow_zero, Nat.mod_one]

end Sys2Proof
end

section
/-! PROOFS. The four ways a request is served (30_encoding.md R52, 40_decode_top.md R60): the row the
decoder reads and the result of the eight steps, branch by branch. -/

namespace Sys2Proof

section
variable {c : Config} {r : Request}

theorem decode_of_not_isTag (ht : ¬ r.isTag = true) : decode c r = .malformedTag r := if_neg ht

theorem decode_of_isTag (ht : r.isTag = true) : decode c r = decodeTag c (tagWord r) := if_pos ht

theorem decode_of_header_ne (ht : r.isTag = true) (hh : (tagBytes r)[0] ≠ headerSgtin96) :
    decode c r = .unsupportedHeader (tagBytes r)[0] (readBits (tagWord r) 8 88) := by
  simp [decode_of_isTag ht, decodeTag, byteAt_tagWord, hh]

theorem decode_of_ptable_none (ht : r.isTag = true) (hh : (tagBytes r)[0] = headerSgtin96)
    (hp : ptable ((tagBytes r)[1] &&& c.pmask.mask) = none) :
    decode c r = .invalidPartition (readBits (tagWord r) 8 3) (readBits (tagWord r) 14 82) := by
  simp [decode_of_isTag ht, decodeTag, byteAt_tagWord, hh, hp]

theorem decode_of_ptable_some (ht : r.isTag = true) (hh : (tagBytes r)[0] = headerSgtin96)
    {f : Format} (hp : ptable ((tagBytes r)[1] &&& c.pmask.mask) = some f) :
    decode c r = decodeFormat (tagWord r) f := by
  simp [decode_of_isTag ht, decodeTag, byteAt_tagWord, hh, hp]

/-- The one masked value the table lacks is 28 (42_header_filter_partition.md R89, R90). -/
theorem masked_eq_28_of_ptable_none (m : PMask) :
    ∀ b : Byte, ptable (b &&& m.mask) = none → b &&& m.mask = 28#8 := by
  cases m <;> decide

end

end Sys2Proof

namespace Sys2Proof.Machine

section
variable {c : Config} {r : Request}

/-- The length test and the character test of Step 1 together are the text form. -/
theorem isTag_eq_true_iff_tests :
    r.isTag = true ↔ ¬ r.len ≠ 24#8 ∧ ¬ r.ch.toList.any (fun x => !isHex x) = true := by
  simp only [Request.isTag, Bool.and_eq_true, beq_iff_eq, List.all_eq_true, List.any_eq_true, ne_eq,
    not_not, not_exists, not_and, Bool.not_eq_true', Bool.not_eq_false]

theorem decodeSteps_of_not_isTag (ht : ¬ r.isTag = true) :
    decodeSteps c r = .error .malformedTag := by
  by_cases hl : r.len ≠ 24#8
  · exact if_pos hl
  · have hc : r.ch.toList.any (fun x => !isHex x) = true :=
      by_contra fun hc => ht (isTag_eq_true_iff_tests.2 ⟨hl, hc⟩)
    exact (if_neg hl).trans (if_pos hc)

theorem decodeSteps_of_header_ne (ht : r.isTag = true) (hh : (tagBytes r)[0] ≠ headerSgtin96) :
    decodeSteps c r = .error (.unsupportedHeader (tagBytes r)[0]) := by
  obtain ⟨hl, hc⟩ := isTag_eq_true_iff_tests.1 ht
  simp only [decodeSteps, if_neg hl, if_neg hc, if_pos hh]

theorem decodeSteps_of_ptable_none (ht : r.isTag = true) (hh : (tagBytes r)[0] = headerSgtin96)
    (hp : ptable ((tagBytes r)[1] &&& c.pmask.mask) = none) :
    decodeSteps c r = .error (.invalidPartition ((tagBytes r)[1] &&& c.pmask.mask)) := by
  obtain ⟨hl, hc⟩ := isTag_eq_true_iff_tests.1 ht
  simp only [decodeSteps, if_neg hl, if_neg hc, if_neg (not_not_intro hh), hp]

theorem decodeSteps_of_ptable_some (ht : r.isTag = true) (hh : (tagBytes r)[0] = headerSgtin96)
    {f : Format} (hp : ptable ((tagBytes r)[1] &&& c.pmask.mask) = some f) :
    decodeSteps c r = .ok (fieldSteps c r ((tagBytes r)[1] &&& filterMask)
      ((tagBytes r)[1] &&& c.pmask.mask) f.cpw) := by
  obtain ⟨hl, hc⟩ := isTag_eq_true_iff_tests.1 ht
  simp only [decodeSteps, if_neg hl, if_neg hc, if_neg (not_not_intro hh), hp]

end

end Sys2Proof.Machine
end

section
/-! PROOFS. The fields the eight steps compute from bytes and stream bits are the reads of the tag
word that the decoder makes. -/

namespace Sys2Proof.Machine

/-- 41_surface_validation.md R74, R75: the stream bits spelt by the bytes are those of the word. -/
theorem streamBits_getElem (r : Request) (i : Nat) (h : i < 96) :
    (streamBits (tagBytes r))[i] = (tagWord r).getMsbD i := by
  have inByte : 7 - i % 8 < 8 := by omega
  have index : 96 - 8 * (i / 8) - 8 + (7 - i % 8) = 96 - 1 - i := by omega
  simp only [streamBits, Vector.getElem_ofFn]
  rw [← byteAt_tagWord r (i / 8) (by omega), byteAt, readBits_getLsbD, index, BitVec.getMsbD,
    decide_eq_true inByte, decide_eq_true h]

/-- `ReadBits` on the stream bits of a tag is the read of its word (20_memory.md R33). -/
theorem readBitsSum_streamBits (r : Request) (off w : Nat) (h : off + w ≤ 96) :
    readBitsSum (streamBits (tagBytes r)) off w = (readBits (tagWord r) off w h).toNat := by
  rw [readBits_toNat_eq_sum, readBitsSum]
  refine congrArg List.sum (List.map_congr_left fun j hj => ?_)
  have inside : off + j < 96 := by have := List.mem_range.mp hj; omega
  rw [← streamBits_getElem r _ inside]
  simp [List.getD_eq_getElem?_getD, inside]

/-- The masked filter of byte 1 is the filter field, left in place
(42_header_filter_partition.md R82). -/
theorem filterValue_readBits (r : Request) :
    filterValue (readBits (tagWord r) 8 3) = (tagBytes r)[1] &&& filterMask := by
  have topBits : ∀ b : Byte, filterValue (b.extractLsb' 5 3) = b &&& filterMask := by decide
  rw [← topBits, ← byteAt_tagWord r 1 (by omega)]
  congr 1
  apply BitVec.eq_of_toNat_eq
  rw [readBits_toNat, BitVec.extractLsb'_toNat, byteAt_toNat, Nat.shiftRight_eq_div_pow]
  omega

/-- The scratch pipeline on bytes 7 to 11 gives the low 32 bits of the serial field, whatever byte is
substituted (44_serial_number.md R135, R136). -/
theorem ser32_tagBytes (r : Request) (header : Byte) :
    ser32 header
        #v[(tagBytes r)[7], (tagBytes r)[8], (tagBytes r)[9], (tagBytes r)[10], (tagBytes r)[11]] =
      (readBits (tagWord r) 58 38).setWidth 32 := by
  apply BitVec.eq_of_toNat_eq
  rw [ser32_toNat, BitVec.toNat_setWidth, readBits_toNat]
  simp only [← byteAt_tagWord, byteAt_toNat, Vector.getElem_mk, List.getElem_toArray,
    List.getElem_cons_succ, List.getElem_cons_zero]
  omega

theorem cpw_add_irw (f : Format) : f.cpw + f.irw = 44 := by cases f <;> rfl

/-- The fields of format `f` lie within the word (43_field_extraction.md R101 to R103). -/
theorem cp_inside (f : Format) : 14 + f.cpw ≤ 96 := by have := cpw_add_irw f; omega

theorem ir_inside (f : Format) : 14 + f.cpw + f.irw ≤ 96 := by have := cpw_add_irw f; omega

/-- The image of a success with the fields of format `f` read from the tag word. -/
def fieldsImage (c : Config) (r : Request) (f : Format) : Response :=
  let ser := readBits (tagWord r) 58 38
  okImage c f (filterValue (readBits (tagWord r) 8 3))
    ((readBits (tagWord r) 14 f.cpw (cp_inside f)).setWidth 40)
    ((readBits (tagWord r) (14 + f.cpw) f.irw (ir_inside f)).setWidth 24)
    (serialOf c.serialMode (ser.setWidth 32) ser)

/-- Steps 6 to 8 of the reference give that image. -/
theorem imageOf_fieldSteps (c : Config) (r : Request) (f : Format) :
    imageOf c (.ok (fieldSteps c r ((tagBytes r)[1] &&& filterMask) f.key f.cpw)) =
      fieldsImage c r f := by
  have hcp := readBitsSum_streamBits r 14 f.cpw (cp_inside f)
  have hir := readBitsSum_streamBits r (14 + f.cpw) f.irw (ir_inside f)
  have hser := readBitsSum_streamBits r 58 38 (by omega)
  have h32 := ser32_tagBytes r (tagBytes r)[0]
  rw [ser32] at h32
  have irw : 44 - f.cpw = f.irw := rfl
  simp only [imageOf, fieldSteps, fieldsImage, okImage, filterValue_readBits, irw, hcp, hir, hser, h32,
    BitVec.ofNat_toNat, BitVec.setWidth_eq]

/-- The meaning of a format writes that image. -/
theorem exec_decodeFormat (s : State) (r : Request) (f : Format) :
    exec (decodeFormat (tagWord r) f) s = respond (fieldsImage s.config r f) s := by
  have complete := fun cp ir => completeDecode_eq f (readBits (tagWord r) 8 3) cp ir
    (readBits (tagWord r) 58 38) s
  rw [fieldsImage, ← complete]
  cases f with
  | p0 => exact congrArg (completeDecode .p0 _ · _ _ s) (BitVec.setWidth_eq _).symm
  | p24 => exact congrArg (completeDecode .p24 _ _ · _ s) (BitVec.setWidth_eq _).symm
  | _ => rfl

end Sys2Proof.Machine
end

section
/-! PROOFS. 40_decode_top.md: the decode as a whole, and the host's SUBMIT and COLLECT. -/

namespace Sys2Proof.Machine

open Sys2Proof.Claims

/-- 40_decode_top.md R60: running the decoded request writes the image of the eight steps, or waits. -/
theorem exec_decode (s : State) (r : Request) :
    exec (decode s.config r) s = respond (decodeImage s.config r) s := by
  rw [decodeImage]
  by_cases ht : r.isTag = true
  · by_cases hh : (tagBytes r)[0] = headerSgtin96
    · cases hp : ptable ((tagBytes r)[1] &&& s.config.pmask.mask) with
      | none =>
        rw [decode_of_ptable_none ht hh hp, decodeSteps_of_ptable_none ht hh hp,
          masked_eq_28_of_ptable_none _ _ hp]
        rfl
      | some f =>
        rw [decode_of_ptable_some ht hh hp, decodeSteps_of_ptable_some ht hh hp,
          ptable_eq_some _ _ hp, imageOf_fieldSteps, exec_decodeFormat]
    · rw [decode_of_header_ne ht hh, decodeSteps_of_header_ne ht hh]
      rfl
  · rw [decode_of_not_isTag ht, decodeSteps_of_not_isTag ht]
    rfl

/-- Settles O27: the four ways a request is served, each writing the image of the same branch of the
eight steps; it is accepted because no response is held. -/
theorem machineRunsTheEightSteps : Obligations.MachineRunsTheEightSteps := by
  intro s r hv
  rw [exec_decode, respond_free _ s hv]
  rfl

/-- Settles O30: the response of both states is the image of the decode, which reads nothing of the
state but the configuration. -/
theorem responseDependsOnRequestAndConfigurationAlone :
    Obligations.ResponseDependsOnRequestAndConfigurationAlone := by
  intro s s' r hc hv hv'
  refine ⟨decodeImage s.config r, machineRunsTheEightSteps s r hv, ?_⟩
  rw [hc]
  exact machineRunsTheEightSteps s' r hv'

theorem ready_of_presented_none {s : State} (hp : s.presented = none) : ready s = false := by
  simp [ready, hp]

theorem ready_of_held {s : State} (hv : s.respValid = true) : ready s = false := by
  simp [ready, hv]

/-- With no request ready to be accepted, a step is the host's next operation, reset or not. -/
theorem step_of_not_ready {s : State} (h : ready s = false) : step s = hostStep s := by
  unfold step
  split
  · rfl
  · rw [h]; rfl

theorem present_of_none (r : Request) {s : State} (hp : s.presented = none) :
    present r s = { s with presented := some r } := by
  simp [present, hp]

theorem hostStep_submit {s : State} {r : Request} {rest : List HostOp}
    (ho : s.hostOps = .submit r :: rest) :
    hostStep s = serve (present r (withHostOps rest s)) := by
  simp [hostStep, ho]

theorem hostStep_collect {s : State} {rest : List HostOp} (ho : s.hostOps = .collect :: rest) :
    hostStep s = collect (withHostOps rest s) := by
  simp [hostStep, ho]

/-- A SUBMIT at a free port decodes and runs the submitted request in the same step. -/
theorem step_submit {s : State} {r : Request} {rest : List HostOp}
    (ho : s.hostOps = .submit r :: rest) (hp : s.presented = none) :
    step s = exec (decode s.config r) { s with hostOps := rest, presented := some r } := by
  have hp' : (withHostOps rest s).presented = none := hp
  rw [step_of_not_ready (ready_of_presented_none hp), hostStep_submit ho, present_of_none r hp']
  rfl

/-- 40_decode_top.md R66: that step writes the image of the request's decode, or the request waits. -/
theorem step_submit_eq_respond {s : State} {r : Request} {rest : List HostOp}
    (ho : s.hostOps = .submit r :: rest) (hp : s.presented = none) :
    step s =
      respond (decodeImage s.config r) { s with hostOps := rest, presented := some r } :=
  (step_submit ho hp).trans (exec_decode { s with hostOps := rest, presented := some r } r)

/-- Settles O35: the submitted request is run at once, and running it writes the image of its decode or
leaves it at the port. -/
theorem submitIsAcceptedOrWaits : Obligations.SubmitIsAcceptedOrWaits := by
  intro s r rest ho hp
  rw [step_submit_eq_respond ho hp]
  constructor
  · intro hv
    refine (respond_free _ _ ?accepted).trans ?written
    case accepted => exact hv
    case written => rw [hp]; rfl
  · intro hv
    exact respond_held _ _ hv

/-- Settles O36: while a response is held no request is ready, so the step is the host's COLLECT. -/
theorem collectHandsOverTheResponse : Obligations.CollectHandsOverTheResponse := by
  intro s rest ho hv
  rw [step_of_not_ready (ready_of_held hv), hostStep_collect ho,
    collect_held (withHostOps rest s) hv]
  rfl

end Sys2Proof.Machine
end

section
/-! PROOFS. 41_surface_validation.md: Step 1, which tests the text form, and Step 2, which forms bytes,
stream bits and word from it. -/

namespace Sys2Proof.Machine

open Sys2Proof.Claims

/-! ### Bytes, stream bits and word -/

/-- A bit of byte `k` is the bit of the word that 41_surface_validation.md R75 names. -/
theorem tagBytes_getLsbD (r : Request) {k j : Nat} (hk : k < 12) (hj : j < 8) :
    (tagBytes r)[k].getLsbD (7 - j) = (tagWord r).getLsbD (95 - 8 * k - j) := by
  have inByte : 7 - j < 8 := by omega
  have index : 96 - 8 * k - 8 + (7 - j) = 95 - 8 * k - j := by omega
  rw [← byteAt_tagWord r k hk, byteAt, readBits_getLsbD, index, decide_eq_true inByte, Bool.true_and]

/-- 41_surface_validation.md R74: bit `j` of byte `k`, from the most significant one, stands at
position `8k + j` of the stream. -/
theorem streamBits_getElem_eq_getLsbD (B : Vector Byte 12) {k j : Nat} (hk : k < 12) (hj : j < 8) :
    (streamBits B)[8 * k + j] = B[k].getLsbD (7 - j) := by
  have byte : (8 * k + j) / 8 = k := by omega
  have bit : (8 * k + j) % 8 = j := by omega
  simp only [streamBits, Vector.getElem_ofFn, byte, bit]

theorem tagBytes_getD (r : Request) (k : Nat) (hk : k < 12) :
    (tagBytes r).toList.getD k 0 = (tagBytes r)[k] := by
  simp [List.getD_eq_getElem?_getD, hk]

/-- 30_encoding.md R47: the word is the sum of the bytes weighted by powers of 256. -/
theorem tagWord_toNat_eq_sum (r : Request) :
    (tagWord r).toNat =
      ((List.range 12).map fun k => ((tagBytes r).toList.getD k 0).toNat * 256 ^ (11 - k)).sum := by
  simp only [tagWord_toNat, ← tagBytes_getD, List.sum_range_succ, List.range_zero, List.map_nil,
    List.sum_nil]
  ring

/-- Settles O6: stream bit to byte by the materialisation of R74, byte to word because a byte is a read
of the word, and the word as the big-endian sum of the bytes. -/
theorem bytesBitsAndWordAreOneContent : Obligations.BytesBitsAndWordAreOneContent := by
  intro r
  refine ⟨fun k j hk hj => ⟨?streamToByte, ?byteToWord⟩, tagWord_toNat_eq_sum r⟩
  case streamToByte => exact streamBits_getElem_eq_getLsbD (tagBytes r) hk hj
  case byteToWord => exact tagBytes_getLsbD r hk hj

/-! ### Malformed strings -/

/-- The image of an error is its failure column of 10_state.md R26. -/
theorem errorImage_eq_failureColumn (c : Config) (e : DecodeError) :
    errorImage c e = failureColumn c (errorStatus e) (errorPayload e) := by
  obtain ⟨_, mode⟩ := c
  cases mode <;> rfl

/-- Whatever test of Step 1 a request fails, it is answered `MalformedTag` (60_exceptions.md R153). -/
theorem exec_decode_of_not_isTag {s : State} {r : Request} (ht : ¬ r.isTag = true)
    (hv : s.respValid = false) :
    exec (decode s.config r) s = .next (accepted s (failureColumn s.config 1 0)) := by
  have image : decodeImage s.config r = failureColumn s.config 1 0 := by
    rw [decodeImage, decodeSteps_of_not_isTag ht]
    exact errorImage_eq_failureColumn s.config .malformedTag
  rw [machineRunsTheEightSteps s r hv, image]

/-- The saturation of the length at 255 makes no string look 24 characters long
(10_state.md R25). -/
theorem ofCodes_len_eq_24_iff (codes : List Byte) :
    (Request.ofCodes codes).len = 24#8 ↔ codes.length = 24 := by
  rw [Request.ofCodes, ← BitVec.toNat_inj, BitVec.toNat_ofNat, BitVec.toNat_ofNat]
  omega

/-- Settles O8: the length at the port is 24 for strings of that length only, so Step 1 fails. -/
theorem wrongLengthIsMalformed : Obligations.WrongLengthIsMalformed := by
  intro s codes hlen hv
  refine exec_decode_of_not_isTag (fun ht => hlen ?_) hv
  obtain ⟨len, -⟩ := (isTag_iff _).1 ht
  exact (ofCodes_len_eq_24_iff codes).1 len

/-- 30_encoding.md R45: the three ranges of character codes. -/
theorem isHex_eq_true_iff (c : Byte) :
    isHex c = true ↔
      (0x30 ≤ c.toNat ∧ c.toNat ≤ 0x39) ∨ (0x41 ≤ c.toNat ∧ c.toNat ≤ 0x46) ∨
        (0x61 ≤ c.toNat ∧ c.toNat ≤ 0x66) := by
  simp only [isHex, Bool.or_eq_true, Bool.and_eq_true, decide_eq_true_eq, or_assoc]

/-- Settles O9: in the text form every lane, so also this one, holds a hex digit. -/
theorem nonHexCharacterIsMalformed : Obligations.NonHexCharacterIsMalformed := by
  intro s r i _ notHex hv
  refine exec_decode_of_not_isTag (fun ht => notHex ?_) hv
  obtain ⟨-, hex⟩ := (isTag_iff r).1 ht
  exact (isHex_eq_true_iff _).1 (hex i)

/-! ### Letter case -/

/-- 30_encoding.md R46: the case of a letter does not change its digit value. -/
theorem hexval_eq_of_sameUpToCase {a b : Byte} (ha : isHex a = true) (hb : isHex b = true)
    (h : sameUpToCase a b) : hexval a = hexval b := by
  rcases h with rfl | rfl
  · rfl
  · exact (hexval_caseBit a ha hb).symm

/-- Step 2 reads nothing of the characters but their digit values (41_surface_validation.md R73). -/
theorem tagBytes_congr {r r' : Request} (h : ∀ i : Fin 24, hexval r.ch[i] = hexval r'.ch[i]) :
    tagBytes r = tagBytes r' := by
  refine Vector.ext fun k hk => ?_
  have high : hexval r.ch[2 * k] = hexval r'.ch[2 * k] := h ⟨2 * k, by omega⟩
  have low : hexval r.ch[2 * k + 1] = hexval r'.ch[2 * k + 1] := h ⟨2 * k + 1, by omega⟩
  rw [tagBytes_getElem, tagBytes_getElem, high, low]

theorem tagWord_congr {r r' : Request} (h : tagBytes r = tagBytes r') : tagWord r = tagWord r' := by
  rw [tagWord, tagWord, h]

/-- Well-formed tags are decoded by their words. -/
theorem decode_congr (c : Config) {r r' : Request} (ht : r.isTag = true) (ht' : r'.isTag = true)
    (h : tagWord r = tagWord r') : decode c r = decode c r' := by
  rw [decode_of_isTag ht, decode_of_isTag ht', h]

/-- Settles O10: lane by lane the digit values are equal, hence the bytes, the word and the decoded
instruction. -/
theorem letterCaseDoesNotMatter : Obligations.LetterCaseDoesNotMatter := by
  intro s r r' ht ht' same
  obtain ⟨-, hex⟩ := (isTag_iff r).1 ht
  obtain ⟨-, hex'⟩ := (isTag_iff r').1 ht'
  have bytes : tagBytes r = tagBytes r' :=
    tagBytes_congr fun i => hexval_eq_of_sameUpToCase (hex i) (hex' i) (same i)
  have word : tagWord r = tagWord r' := tagWord_congr bytes
  exact ⟨bytes, word, by rw [decode_congr s.config ht ht' word]⟩

end Sys2Proof.Machine
end

section
/-! PROOFS. 42_header_filter_partition.md: Step 3 tests the header, Step 4 masks and checks the filter,
Step 5 looks the partition up, under both masks. -/

namespace Sys2Proof.Machine

open Sys2Proof.Claims

/-! ### The header -/

/-- A decode that an error ends is answered by that error's failure column (60_exceptions.md R154). -/
theorem exec_decode_of_error {s : State} {r : Request} {e : DecodeError}
    (he : decodeSteps s.config r = .error e) (hv : s.respValid = false) :
    exec (decode s.config r) s =
      .next (accepted s (failureColumn s.config (errorStatus e) (errorPayload e))) := by
  rw [machineRunsTheEightSteps s r hv, decodeImage, he, imageOf, errorImage_eq_failureColumn]

/-- Settles O11: Step 3 ends the decode of such a tag with the header byte as payload. -/
theorem otherHeadersAreUnsupported : Obligations.OtherHeadersAreUnsupported :=
  fun _ _ ht hh hv => exec_decode_of_error (decodeSteps_of_header_ne ht hh) hv

/-! ### The filter -/

theorem filterOk_eq_true_iff (b : Byte) :
    filterOk b = true ↔ b.toNat ∈ [0, 32, 64, 96, 128, 160, 192, 224] := by
  simp [filterOk, ← BitVec.toNat_inj]

/-- 42_header_filter_partition.md R82: masking a byte leaves its top three bits in place. -/
theorem and_filterMask (b : Byte) : b &&& filterMask = filterValue (b.extractLsb' 5 3) := by
  revert b; decide

/-- The eight filter values, one for each value of the three bits, are those the check tests for. -/
theorem filterOk_filterValue : ∀ filter : BitVec 3, filterOk (filterValue filter) = true := by decide

/-- Settles O12: membership read off the list, and a masked byte is one of the eight filter values. -/
theorem filterCheckAlwaysPasses : Obligations.FilterCheckAlwaysPasses := by
  refine ⟨filterOk_eq_true_iff, fun b => ?_⟩
  have masked : b &&& 0xE0#8 = filterValue (b.extractLsb' 5 3) := and_filterMask b
  rw [masked, filterOk_filterValue]

/-! ### The partition table -/

theorem key_toNat (f : Format) : f.key.toNat = printedKey f := by cases f <;> rfl

theorem ptable_eq_some_iff (p : Byte) (f : Format) : ptable p = some f ↔ p = f.key :=
  ⟨ptable_eq_some p f, fun h => h ▸ ptable_key f⟩

/-- Settles O13: the lookup inverts the keys, which have the printed values; the widths row by row. -/
theorem partitionTableHasItsSevenRows : Obligations.PartitionTableHasItsSevenRows := by
  refine ⟨fun p f => ?_, fun f => ⟨?printed, rfl, cpw_add_irw f⟩⟩
  · rw [ptable_eq_some_iff, ← key_toNat, BitVec.toNat_inj]
  case printed => cases f <;> rfl

/-- Under `PMASK = 0x1C` the masked value is the three partition bits, in place, whatever the filter
bits and the last two bits of byte 1 are. -/
theorem append_and_mask_x1C : ∀ (filter p : BitVec 3) (low : BitVec 2),
    (filter ++ p ++ low) &&& PMask.x1C.mask = 0#3 ++ p ++ 0#2 := by decide

theorem partitionBits_eq_key (f : Format) :
    0#3 ++ BitVec.ofNat 3 (printedKey f / 4) ++ 0#2 = f.key := by cases f <;> rfl

/-- Settles O14: masking leaves the partition bits, which 000 to 110 spell the seven keys and 111 spells
28, the value the table lacks; on such a tag Step 5 ends the decode. -/
theorem everyPartitionRowIsReached : Obligations.EveryPartitionRowIsReached := by
  refine ⟨fun f filter low => ?reached, fun filter low => ?bits111, by decide,
    fun s r ht hh hm hb hv => ?run⟩
  case reached => rw [append_and_mask_x1C, partitionBits_eq_key, ptable_key]
  case bits111 =>
    rw [append_and_mask_x1C]
    exact ⟨rfl, rfl⟩
  case run =>
    have masked : (tagBytes r)[1] &&& s.config.pmask.mask = 28#8 := by rw [hm]; exact hb
    have noRow : ptable ((tagBytes r)[1] &&& s.config.pmask.mask) = none := by rw [masked]; rfl
    have steps := decodeSteps_of_ptable_none ht hh noRow
    rw [masked] at steps
    exact exec_decode_of_error steps hv

/-! ### The alternate mask -/

section
variable {c : Config} {r : Request}

theorem decodeImage_of_header_ne (ht : r.isTag = true) (hh : (tagBytes r)[0] ≠ headerSgtin96) :
    decodeImage c r = errorImage c (.unsupportedHeader (tagBytes r)[0]) := by
  rw [decodeImage, decodeSteps_of_header_ne ht hh, imageOf]

theorem decodeImage_of_ptable_none (ht : r.isTag = true) (hh : (tagBytes r)[0] = headerSgtin96)
    (hp : ptable ((tagBytes r)[1] &&& c.pmask.mask) = none) :
    decodeImage c r = errorImage c (.invalidPartition ((tagBytes r)[1] &&& c.pmask.mask)) := by
  rw [decodeImage, decodeSteps_of_ptable_none ht hh hp, imageOf]

theorem decodeImage_of_ptable_some (ht : r.isTag = true) (hh : (tagBytes r)[0] = headerSgtin96)
    {f : Format} (hp : ptable ((tagBytes r)[1] &&& c.pmask.mask) = some f) :
    decodeImage c r = fieldsImage c r f := by
  rw [decodeImage, decodeSteps_of_ptable_some ht hh hp, ptable_eq_some _ _ hp, imageOf_fieldSteps]

end

/-- 42_header_filter_partition.md R90: under `PMASK = 0x18` every masked value is one of four keys. -/
theorem ptable_mask_x18 : ∀ b : Byte, ∃ f ∈ [Format.p0, .p8, .p16, .p24],
    ptable (b &&& PMask.x18.mask) = some f := by decide

/-- The masks differ in the one bit of byte 1 that is stream bit 13. -/
theorem masks_agree_iff : ∀ b : Byte,
    b &&& PMask.x18.mask = b &&& PMask.x1C.mask ↔ b.getLsbD 2 = false := by decide

/-- The alternate mask drops bit 2 of byte 1. -/
theorem or_four_and_mask_x18 : ∀ b : Byte,
    (b ||| 4#8) &&& PMask.x18.mask = b &&& PMask.x18.mask := by decide

theorem tagWord_getMsbD_13 (r : Request) :
    (tagWord r).getMsbD 13 = (tagBytes r)[1].getLsbD 2 := by
  rw [← streamBits_getElem r 13 (by omega)]
  exact streamBits_getElem_eq_getLsbD (tagBytes r) (k := 1) (j := 5) (by omega) (by omega)

theorem readBits_or (t u : TagWord) (off w : Nat) (h : off + w ≤ 96) :
    readBits (t ||| u) off w h = readBits t off w h ||| readBits u off w h :=
  BitVec.extractLsb'_or

/-- A read that keeps clear of stream bit 13 finds nothing in the word of that bit alone. -/
theorem readBits_bit13 {off w : Nat} (h : off + w ≤ 96) (clear : off + w ≤ 13 ∨ 14 ≤ off) :
    readBits (1#96 <<< 82) off w h = 0#w := by
  refine BitVec.eq_of_getLsbD_eq fun i hi => ?_
  have elsewhere : 96 - off - w + i < 82 ∨ 96 - off - w + i - 82 ≠ 0 := by omega
  rw [readBits_getLsbD, BitVec.getLsbD_shiftLeft, BitVec.getLsbD_one, BitVec.getLsbD_zero]
  rcases elsewhere with below | above
  · simp [below]
  · simp [above]

section
variable {t t' : TagWord} (same : t ||| (1#96 <<< 82) = t' ||| (1#96 <<< 82))
include same

/-- Words that differ at most in stream bit 13 give the same reads clear of it. -/
theorem readBits_eq_of_clear {off w : Nat} (h : off + w ≤ 96) (clear : off + w ≤ 13 ∨ 14 ≤ off) :
    readBits t off w h = readBits t' off w h := by
  have reads := congrArg (readBits · off w h) same
  simpa only [readBits_or, readBits_bit13 h clear, BitVec.or_zero] using reads

/-- Their second bytes are one value under the alternate mask. -/
theorem byteAt_one_and_mask_x18 :
    byteAt t 1 &&& PMask.x18.mask = byteAt t' 1 &&& PMask.x18.mask := by
  have bit13 : readBits (1#96 <<< 82) 8 8 = 4#8 := by decide
  have bytes := congrArg (readBits · 8 8) same
  simp only [readBits_or, bit13] at bytes
  rw [← or_four_and_mask_x18, ← or_four_and_mask_x18 (byteAt t' 1)]
  exact congrArg (· &&& PMask.x18.mask) bytes

end

/-- The fields of a format are clear of stream bit 13. -/
theorem fieldsImage_eq_of_same_but_bit13 (c : Config) {r r' : Request}
    (same : tagWord r ||| (1#96 <<< 82) = tagWord r' ||| (1#96 <<< 82)) (f : Format) :
    fieldsImage c r f = fieldsImage c r' f := by
  have hcp := readBits_eq_of_clear same (cp_inside f) (.inr le_rfl)
  have hir := readBits_eq_of_clear same (ir_inside f) (.inr (by omega))
  have hfilter := readBits_eq_of_clear same (off := 8) (w := 3) (by omega) (by omega)
  have hser := readBits_eq_of_clear same (off := 58) (w := 38) (by omega) (by omega)
  simp only [fieldsImage, hfilter, hcp, hir, hser]

/-- 42_header_filter_partition.md R90: the alternate mask ignores stream bit 13. -/
theorem decodeImage_x18_eq_of_same_but_bit13 (m : SerialMode) {r r' : Request}
    (ht : r.isTag = true) (ht' : r'.isTag = true)
    (same : tagWord r ||| (1#96 <<< 82) = tagWord r' ||| (1#96 <<< 82)) :
    decodeImage ⟨.x18, m⟩ r = decodeImage ⟨.x18, m⟩ r' := by
  have header : (tagBytes r)[0] = (tagBytes r')[0] := by
    rw [← byteAt_tagWord, ← byteAt_tagWord]
    exact readBits_eq_of_clear same (by omega) (by omega)
  have masked := byteAt_one_and_mask_x18 same
  rw [byteAt_tagWord, byteAt_tagWord] at masked
  by_cases hh : (tagBytes r)[0] = headerSgtin96
  · obtain ⟨f, -, hp⟩ := ptable_mask_x18 (tagBytes r)[1]
    rw [decodeImage_of_ptable_some ht hh hp,
      decodeImage_of_ptable_some ht' (header ▸ hh) (masked ▸ hp),
      fieldsImage_eq_of_same_but_bit13 _ same]
  · rw [decodeImage_of_header_ne ht hh, decodeImage_of_header_ne ht' (header ▸ hh), header]

/-- With header 48 the two masks give one response exactly when they give one masked value: a success
exports it, and an error has another status. -/
theorem decodeImage_masks_eq_iff (m : SerialMode) {r : Request} (ht : r.isTag = true)
    (hh : (tagBytes r)[0] = headerSgtin96) :
    decodeImage ⟨.x18, m⟩ r = decodeImage ⟨.x1C, m⟩ r ↔
      (tagBytes r)[1] &&& PMask.x18.mask = (tagBytes r)[1] &&& PMask.x1C.mask := by
  obtain ⟨f, -, hp⟩ := ptable_mask_x18 (tagBytes r)[1]
  rw [decodeImage_of_ptable_some ht hh hp]
  cases hp' : ptable ((tagBytes r)[1] &&& PMask.x1C.mask) with
  | none =>
    rw [decodeImage_of_ptable_none ht hh hp']
    refine iff_of_false (fun image => ?_) fun masked => ?_
    · exact absurd (congrArg Response.status image) (by decide : statusOk ≠ 3#2)
    · rw [masked, hp'] at hp
      cases hp
  | some g =>
    rw [decodeImage_of_ptable_some ht hh hp', ptable_eq_some _ _ hp, ptable_eq_some _ _ hp']
    refine ⟨congrArg Response.dbgPartition, fun keys => ?_⟩
    rw [← ptable_eq_some_iff, ptable_key, Option.some_inj] at keys
    rw [keys]
    rfl

/-- The mask has no part in the answer to a foreign header, which comes before it. -/
theorem decodeImage_masks_eq_of_header_ne (m : SerialMode) {r : Request} (ht : r.isTag = true)
    (hh : (tagBytes r)[0] ≠ headerSgtin96) :
    decodeImage ⟨.x18, m⟩ r = decodeImage ⟨.x1C, m⟩ r := by
  rw [decodeImage_of_header_ne ht hh, decodeImage_of_header_ne ht hh]
  rfl

/-- Settles O15: the fields and the alternate mask are clear of stream bit 13; the masked value is always
one of four keys; the responses differ exactly where the masked values do, which is at stream bit 13. -/
theorem alternateMaskIgnoresBitThirteen : Obligations.AlternateMaskIgnoresBitThirteen := by
  intro m r ht
  refine ⟨fun r' ht' => decodeImage_x18_eq_of_same_but_bit13 m ht' ht, fun hh => ?format, ?differ⟩
  case format =>
    obtain ⟨f, hf, hp⟩ := ptable_mask_x18 (tagBytes r)[1]
    refine ⟨f, hf, decode_of_ptable_some ht hh hp, ?_⟩
    rw [← key_toNat, BitVec.ofNat_toNat, BitVec.setWidth_eq]
    exact ptable_eq_some _ _ hp
  case differ =>
    rw [tagWord_getMsbD_13]
    by_cases hh : (tagBytes r)[0] = headerSgtin96
    · rw [Ne, decodeImage_masks_eq_iff m ht hh, masks_agree_iff, Bool.not_eq_false]
      exact (and_iff_right hh).symm
    · exact iff_of_false (not_not_intro (decodeImage_masks_eq_of_header_ne m ht hh))
        fun ⟨header, _⟩ => hh header

end Sys2Proof.Machine
end

section
/-! PROOFS. 43_field_extraction.md: Steps 6 and 7, which read `cp` and `ir`:
as shifts and masks of the word, as the two parts of its 44 bits, and at the cursor. -/

namespace Sys2Proof

/-! ### The two parts of a read -/

section
variable (t : TagWord) {off v w : Nat} (h : off + w ≤ 96) (hv : v ≤ w)
include hv

/-- The first `v` bits of a read are what a shift by the other `w - v` leaves of it. -/
theorem readBits_toNat_first :
    (readBits t off v (by omega)).toNat = (readBits t off w h).toNat / 2 ^ (w - v) := by
  have width : 2 ^ w = 2 ^ (w - v) * 2 ^ v := by rw [← pow_add]; congr 1; omega
  have shift : 2 ^ (96 - off - v) = 2 ^ (96 - off - w) * 2 ^ (w - v) := by
    rw [← pow_add]; congr 1; omega
  rw [readBits_toNat, readBits_toNat, width, Nat.mod_mul_right_div_self, Nat.div_div_eq_div_mul, shift]

/-- The bits of a read after the first `v` are its remainder. -/
theorem readBits_toNat_rest :
    (readBits t (off + v) (w - v) (by omega)).toNat = (readBits t off w h).toNat % 2 ^ (w - v) := by
  have shift : 96 - (off + v) - (w - v) = 96 - off - w := by omega
  rw [readBits_toNat, readBits_toNat, shift, Nat.mod_mod_of_dvd _ (pow_dvd_pow 2 (Nat.sub_le w v))]

/-- A read is made of its first `v` bits and the rest, nothing lost and nothing counted twice. -/
theorem readBits_toNat_eq_first_add_rest :
    (readBits t off w h).toNat =
      (readBits t off v (by omega)).toNat * 2 ^ (w - v) +
        (readBits t (off + v) (w - v) (by omega)).toNat := by
  rw [readBits_toNat_first t h hv, readBits_toNat_rest t h hv, Nat.div_add_mod']

end

/-! ### Shifts and masks of the word -/

section
variable (t : TagWord) {cpw : Nat} (h : cpw ≤ 44)
include h

/-- 43_field_extraction.md R105. -/
theorem companyPrefix_toNat_eq_shift_mask :
    (readBits t 14 cpw).toNat = (t.toNat >>> (82 - cpw)) &&& (2 ^ cpw - 1) :=
  readBits_toNat_eq_shift_mask t 14 cpw (by omega)

/-- 43_field_extraction.md R106: since the field ends at stream bit 57, the shift is 38 at every
width. -/
theorem itemReference_toNat_eq_shift_mask :
    (readBits t (14 + cpw) (44 - cpw)).toNat = (t.toNat >>> 38) &&& (2 ^ (44 - cpw) - 1) := by
  have shift : 96 - (14 + cpw) - (44 - cpw) = 38 := by omega
  rw [readBits_toNat_eq_shift_mask, shift]

end

/-- Settles O17: the two fields are the first `cpw` bits and the rest of the 44-bit read, and each read
is a shift and mask of the word. -/
theorem fieldsSplitTheFortyFourBits : Obligations.FieldsSplitTheFortyFourBits := by
  intro t cpw h
  refine ⟨readBits_toNat t 14 44 (by omega), ?cp, ?ir,
    readBits_toNat_eq_first_add_rest t (by omega) h,
    companyPrefix_toNat_eq_shift_mask t h, itemReference_toNat_eq_shift_mask t h⟩
  case cp => rw [Nat.shiftRight_eq_div_pow, readBits_toNat_first t (by omega) h]
  case ir => rw [Nat.and_two_pow_sub_one_eq_mod, readBits_toNat_rest t (by omega) h]

/-! ### The row that a match word selects -/

theorem readBits_and (t u : TagWord) (off w : Nat) (h : off + w ≤ 96) :
    readBits (t &&& u) off w h = readBits t off w h &&& readBits u off w h :=
  BitVec.extractLsb'_and

end Sys2Proof

namespace Sys2Proof.Machine

open Sys2Proof.Claims

/-- A tag under the match word of a row has header 48 and, under `PMASK = 0x1C`, the key of the row
(30_encoding.md R50). -/
theorem tagBytes_of_rowMatch {r : Request} {f : Format} (h : tagWord r &&& rowMask = rowMatch f) :
    (tagBytes r)[0] = headerSgtin96 ∧ (tagBytes r)[1] &&& PMask.x1C.mask = f.key := by
  have byte0 := congrArg (readBits · 0 8) h
  have byte1 := congrArg (readBits · 8 8) h
  have mask0 : readBits rowMask 0 8 = BitVec.allOnes 8 := by decide
  have mask1 : readBits rowMask 8 8 = PMask.x1C.mask := by decide
  have match0 : readBits (rowMatch f) 0 8 = headerSgtin96 := by cases f <;> rfl
  have match1 : readBits (rowMatch f) 8 8 = f.key := by cases f <;> rfl
  simp only [readBits_and, mask0, mask1, match0, match1, BitVec.and_allOnes] at byte0 byte1
  rw [← byteAt_tagWord, ← byteAt_tagWord]
  exact ⟨byte0, byte1⟩

/-- The mask and the match words of the table choose the format of a tag, whose decode then ends in the
image of its fields. -/
theorem decodeImage_of_rowMatch {c : Config} {r : Request} {f : Format} (ht : r.isTag = true)
    (hm : c.pmask = .x1C) (h : tagWord r &&& rowMask = rowMatch f) :
    decodeImage c r = fieldsImage c r f := by
  obtain ⟨header, key⟩ := tagBytes_of_rowMatch h
  refine decodeImage_of_ptable_some ht header ?_
  rw [hm, key, ptable_key]

/-! ### The fields at the port -/

theorem cpw_le (f : Format) : f.cpw ≤ 40 := by cases f <;> decide

theorem irw_le (f : Format) : f.irw ≤ 24 := by cases f <;> decide

theorem cpw_ofNat_toNat (f : Format) : (BitVec.ofNat 6 f.cpw).toNat = f.cpw := by cases f <;> rfl

theorem irw_ofNat_toNat (f : Format) : (BitVec.ofNat 5 f.irw).toNat = f.irw := by cases f <;> rfl

/-- The printed shift amounts and masks of 43_field_extraction.md R105 and R106 are those the widths
give. -/
theorem cpShift_eq (f : Format) : cpShift f = 82 - f.cpw := by cases f <;> rfl

theorem cpMask_eq (f : Format) : cpMask f = 2 ^ f.cpw - 1 := by cases f <;> rfl

theorem irMask_eq (f : Format) : irMask f = 2 ^ f.irw - 1 := by cases f <;> rfl

section
variable (c : Config) (r : Request) (f : Format)

/-- 43_field_extraction.md R105, R108: extending `cp` to its port keeps its value. -/
theorem fieldsImage_companyPrefix_toNat :
    (fieldsImage c r f).companyPrefix.toNat =
      ((tagWord r).toNat >>> (82 - f.cpw)) &&& (2 ^ f.cpw - 1) := by
  have narrow := cpw_le f
  exact (BitVec.toNat_setWidth_of_le narrow).trans
    (companyPrefix_toNat_eq_shift_mask (tagWord r) (by omega))

/-- 43_field_extraction.md R106, R108: extending `ir` to its port keeps its value. -/
theorem fieldsImage_itemReference_toNat :
    (fieldsImage c r f).itemReference.toNat = ((tagWord r).toNat >>> 38) &&& (2 ^ f.irw - 1) := by
  have narrow := cpw_le f
  exact (BitVec.toNat_setWidth_of_le (irw_le f)).trans
    (itemReference_toNat_eq_shift_mask (tagWord r) (by omega))

theorem fieldsImage_dbgCpw_toNat : (fieldsImage c r f).dbgCpw.toNat = f.cpw := cpw_ofNat_toNat f

theorem fieldsImage_dbgIrw_toNat : (fieldsImage c r f).dbgIrw.toNat = f.irw := irw_ofNat_toNat f

end

/-- Settles O16: the match word selects the row, so the machine writes the image of the row's fields,
each a read of the word and thus a shift and mask of it. -/
theorem fieldsAreShiftsAndMasksOfTheWord : Obligations.FieldsAreShiftsAndMasksOfTheWord := by
  intro s r f ht hm hw hv
  obtain ⟨-, widths⟩ := partitionTableHasItsSevenRows
  obtain ⟨printed, -, -⟩ := widths f
  have cp := fieldsImage_companyPrefix_toNat s.config r f
  have ir := fieldsImage_itemReference_toNat s.config r f
  refine ⟨fieldsImage s.config r f, ?runs, rfl, rfl, ?cpPrinted, ?cpWidth, ?irPrinted, ?irWidth,
    key_toNat f, ?widths⟩
  case runs => rw [machineRunsTheEightSteps s r hv, decodeImage_of_rowMatch ht hm hw]
  case cpPrinted => rw [cp, cpShift_eq, cpMask_eq]
  case cpWidth => rw [cp, fieldsImage_dbgCpw_toNat]
  case irPrinted => rw [ir, irMask_eq]
  case irWidth => rw [ir, fieldsImage_dbgIrw_toNat]
  case widths => rw [fieldsImage_dbgCpw_toNat, fieldsImage_dbgIrw_toNat, printed]

/-! ### The cursor -/

/-- A decode that reaches its end has passed every test, and its signals are those of Steps 6 to 8 in
the format the table gives. -/
theorem decodeSteps_eq_ok {c : Config} {r : Request} {x : Signals} (h : decodeSteps c r = .ok x) :
    ∃ f, ptable ((tagBytes r)[1] &&& c.pmask.mask) = some f ∧
      x = fieldSteps c r ((tagBytes r)[1] &&& filterMask) ((tagBytes r)[1] &&& c.pmask.mask) f.cpw := by
  by_cases ht : r.isTag = true
  · by_cases hh : (tagBytes r)[0] = headerSgtin96
    · cases hp : ptable ((tagBytes r)[1] &&& c.pmask.mask) with
      | none => simp [decodeSteps_of_ptable_none ht hh hp] at h
      | some f =>
        rw [decodeSteps_of_ptable_some ht hh hp, Except.ok.injEq] at h
        exact ⟨f, rfl, h.symm⟩
    · simp [decodeSteps_of_header_ne ht hh] at h
  · simp [decodeSteps_of_not_isTag ht] at h

/-- A read of `w` stream bits fits every register of at least `w` bits. -/
theorem readBitsSum_streamBits_lt (r : Request) {off w : Nat} (h : off + w ≤ 96) :
    readBitsSum (streamBits (tagBytes r)) off w < 2 ^ w := by
  rw [readBitsSum_streamBits r off w h]
  exact (readBits (tagWord r) off w h).isLt

theorem readBitsSum_streamBits_ofNat_toNat (r : Request) {off w n : Nat} (h : off + w ≤ 96)
    (hn : w ≤ n) :
    (BitVec.ofNat n (readBitsSum (streamBits (tagBytes r)) off w)).toNat =
      readBitsSum (streamBits (tagBytes r)) off w := by
  rw [BitVec.toNat_ofNat]
  exact Nat.mod_eq_of_lt
    ((readBitsSum_streamBits_lt r h).trans_le (Nat.pow_le_pow_right (by omega) hn))

section
variable (c : Config) (r : Request) (filter partition : Byte) (f : Format)

theorem fieldSteps_cpw_toNat : (fieldSteps c r filter partition f.cpw).cpw.toNat = f.cpw :=
  cpw_ofNat_toNat f

theorem fieldSteps_irw_toNat : (fieldSteps c r filter partition f.cpw).irw.toNat = f.irw :=
  irw_ofNat_toNat f

theorem fieldSteps_cur7_toNat : (fieldSteps c r filter partition f.cpw).cur7.toNat = 14 + f.cpw := by
  cases f <;> rfl

/-- 43_field_extraction.md R104. -/
theorem fieldSteps_curEnd_toNat : (fieldSteps c r filter partition f.cpw).curEnd.toNat = 58 := by
  cases f <;> rfl

/-- 43_field_extraction.md R101: the read at 14 fits `cp`. -/
theorem fieldSteps_cp_toNat :
    (fieldSteps c r filter partition f.cpw).cp.toNat =
      readBitsSum (streamBits (tagBytes r)) 14 f.cpw :=
  readBitsSum_streamBits_ofNat_toNat r (cp_inside f) (cpw_le f)

/-- 43_field_extraction.md R103: the read at `14 + cpw` fits `ir`. -/
theorem fieldSteps_ir_toNat :
    (fieldSteps c r filter partition f.cpw).ir.toNat =
      readBitsSum (streamBits (tagBytes r)) (14 + f.cpw) f.irw :=
  readBitsSum_streamBits_ofNat_toNat r (ir_inside f) (irw_le f)

end

/-- Settles O19: the signals of such a decode are those of the format's Steps 6 to 8, where the widths
sum to 44, so the cursor ends at 58, and both reads fit their registers. -/
theorem cursorEndsAtFiftyEight : Obligations.CursorEndsAtFiftyEight := by
  intro c r x h
  obtain ⟨f, -, rfl⟩ := decodeSteps_eq_ok h
  obtain ⟨-, filterPasses⟩ := filterCheckAlwaysPasses
  have widths := cpw_add_irw f
  rw [fieldSteps_cpw_toNat, fieldSteps_irw_toNat, fieldSteps_cur7_toNat, fieldSteps_curEnd_toNat,
    fieldSteps_cp_toNat, fieldSteps_ir_toNat]
  exact ⟨rfl, rfl, by omega, rfl, widths, readBitsSum_streamBits_lt r (cp_inside f),
    readBitsSum_streamBits_lt r (ir_inside f), rfl, rfl, filterPasses (tagBytes r)[1]⟩

end Sys2Proof.Machine
end

section
/-! PROOFS. 44_serial_number.md: Step 8, the two serial numbers, the selection between them and the
decimal rendering. -/

namespace Sys2Proof

/-- A read is zero exactly when all the stream bits it takes are. -/
theorem readBits_toNat_eq_zero_iff (t : TagWord) (off w : Nat) (h : off + w ≤ 96) :
    (readBits t off w h).toNat = 0 ↔ ∀ i, off ≤ i → i < off + w → t.getMsbD i = false := by
  have weighted : (readBits t off w h).toNat = 0 ↔ ∀ j < w, t.getMsbD (off + j) = false := by
    rw [readBits_toNat_eq_sum, List.sum_eq_zero_iff]
    simp
  rw [weighted]
  constructor
  · intro bits i hi hw
    have bit := bits (i - off) (by omega)
    rwa [Nat.add_sub_cancel' hi] at bit
  · intro bits j hj
    exact bits (off + j) (Nat.le_add_right off j) (by omega)

/-- The standard serial field is the last 38 bits of the tag (44_serial_number.md R130). -/
theorem serialField_toNat (t : TagWord) : (readBits t 58 38).toNat = t.toNat % 2 ^ 38 := by
  rw [readBits_toNat, pow_zero, Nat.div_one]

/-- The low 32 bits of the serial field are the read of the last four bytes. -/
theorem serialField_setWidth_eq_readBits (t : TagWord) :
    (readBits t 58 38).setWidth 32 = readBits t 64 32 := by
  apply BitVec.eq_of_toNat_eq
  rw [BitVec.toNat_setWidth]
  exact (readBits_toNat_rest t (off := 58) (v := 6) (w := 38) (by omega) (by omega)).symm

theorem lastFourBytes_toNat (t : TagWord) : (readBits t 64 32).toNat = t.toNat % 2 ^ 32 := by
  rw [readBits_toNat, pow_zero, Nat.div_one]

/-- The serial field is its first six bits and the last four bytes. -/
theorem serialField_toNat_eq_add (t : TagWord) :
    (readBits t 58 38).toNat = (readBits t 58 6).toNat * 2 ^ 32 + (readBits t 64 32).toNat :=
  readBits_toNat_eq_first_add_rest t (off := 58) (v := 6) (w := 38) (by omega) (by omega)

/-- Those six bits are `B[7][5:0]`, what is left of byte 7 after the two bits of the item reference
(20_memory.md R38). -/
theorem serialField_first_six_toNat (t : TagWord) :
    (readBits t 58 6).toNat = (byteAt t 7).toNat % 2 ^ 6 :=
  readBits_toNat_rest t (off := 56) (v := 2) (w := 8) (by omega) (by omega)

end Sys2Proof

namespace Sys2Proof.Machine

open Sys2Proof.Claims

/-! ### The scratch pipeline -/

/-- After the reversal the substituted byte stands in the fifth place, which the reinterpretation does
not use. -/
theorem reinterpreted_reversed_set_zero (S : Vector Byte 5) (b : Byte) :
    reinterpreted (reversed (S.set 0 b)) = reinterpreted (reversed S) := by
  simp [reinterpreted, reversed]

/-- 44_serial_number.md R136: the substitution could be left out. -/
theorem ser32_eq_reinterpreted_reversed (header : Byte) (tail : Vector Byte 5) :
    ser32 header tail = reinterpreted (reversed tail) :=
  reinterpreted_reversed_set_zero tail _

/-- Settles O22: the pipeline takes every header and every first byte to what it gives without the
substitution. -/
theorem substitutedByteDoesNotReachTheSerial : Obligations.SubstitutedByteDoesNotReachTheSerial := by
  intro header header' tail b7
  simp only [ser32_eq_reinterpreted_reversed, reinterpreted_reversed_set_zero, and_self]

/-- The pipeline on the bytes of a word: the word spells itself as a text, so this is the pipeline on
the bytes of a request. -/
theorem ser32_byteAt (t : TagWord) (header : Byte) :
    ser32 header #v[byteAt t 7, byteAt t 8, byteAt t 9, byteAt t 10, byteAt t 11] =
      (readBits t 58 38).setWidth 32 := by
  simpa only [tagBytes_textOf, tagWord_textOf] using ser32_tagBytes (textOf t) header

/-- Settles O21: the byte sum is what the four operations leave, and it is the low 32 bits of the serial
field, which are the read of the last four bytes. -/
theorem serialPipelineHasItsClosedForm : Obligations.SerialPipelineHasItsClosedForm := by
  intro t s32
  have read : s32 = readBits t 64 32 :=
    (ser32_byteAt t (byteAt t 0)).trans (serialField_setWidth_eq_readBits t)
  exact ⟨ser32_toNat _ _, read, read ▸ lastFourBytes_toNat t⟩

/-- Settles O23: the serial field is `B[7][5:0]` above the last four bytes, so every equality condition
says that these six bits are zero. -/
theorem serialModesDifferByBitsFiftyEightToSixtyThree :
    Obligations.SerialModesDifferByBitsFiftyEightToSixtyThree := by
  intro t s32 s38
  obtain ⟨-, read, -⟩ := serialPipelineHasItsClosedForm t
  have low : s32.toNat = (readBits t 64 32).toNat := congrArg BitVec.toNat read
  have bound : s32.toNat < 2 ^ 32 := s32.isLt
  have parts : s38.toNat = (byteAt t 7).toNat % 2 ^ 6 * 2 ^ 32 + s32.toNat := by
    rw [low, ← serialField_first_six_toNat]
    exact serialField_toNat_eq_add t
  have equal_iff : s32.toNat = s38.toNat ↔ (byteAt t 7).toNat % 2 ^ 6 = 0 := by omega
  refine ⟨by omega, parts, equal_iff, ?bits, by omega⟩
  case bits =>
    have last : ∀ i, i < 58 + 6 ↔ i ≤ 63 := fun i => Nat.lt_succ_iff
    rw [equal_iff, ← serialField_first_six_toNat, readBits_toNat_eq_zero_iff]
    simp only [last]

/-! ### The selection -/

theorem serialOf_parity_toNat (s32 : BitVec 32) (s38 : BitVec 38) :
    (serialOf .parity s32 s38).toNat = s32.toNat :=
  BitVec.toNat_setWidth_of_le (by omega)

theorem errorStatus_ne_ok (e : DecodeError) : errorStatus e ≠ statusOk := by
  cases e <;> simp [errorStatus, statusOk]

/-- A response of status 0 is the image of the fields of some format: every error has another
status. -/
theorem decodeImage_of_status_ok {c : Config} {r : Request} (h : (decodeImage c r).status = statusOk) :
    ∃ f, decodeImage c r = fieldsImage c r f := by
  rw [decodeImage] at h ⊢
  cases hd : decodeSteps c r with
  | error e =>
    rw [hd] at h
    exact absurd h (errorStatus_ne_ok e)
  | ok x =>
    obtain ⟨f, hp, rfl⟩ := decodeSteps_eq_ok hd
    exact ⟨f, by rw [ptable_eq_some _ _ hp, imageOf_fieldSteps]⟩

/-- What a decode writes is the image of the eight steps. -/
theorem eq_decodeImage_of_accepted {s : State} {r : Request} {R : Response}
    (h : exec (decode s.config r) s = .next (accepted s R)) (hv : s.respValid = false) :
    R = decodeImage s.config r := by
  rw [machineRunsTheEightSteps s r hv, Host.Outcome.next.injEq] at h
  exact (congrArg State.resp h).symm

section
variable {c : Config} (r : Request) (f : Format)

theorem fieldsImage_serial :
    (fieldsImage c r f).serial =
      serialOf c.serialMode (readBits (tagWord r) 64 32) (readBits (tagWord r) 58 38) := by
  rw [← serialField_setWidth_eq_readBits]
  rfl

/-- 44_serial_number.md R138, the first line of the selection. -/
theorem fieldsImage_serial_toNat_parity (hm : c.serialMode = .parity) :
    (fieldsImage c r f).serial.toNat = (tagWord r).toNat % 2 ^ 32 := by
  rw [fieldsImage_serial, hm, serialOf_parity_toNat, lastFourBytes_toNat]

/-- 44_serial_number.md R138, the second line of the selection. -/
theorem fieldsImage_serial_toNat_corrected (hm : c.serialMode = .corrected) :
    (fieldsImage c r f).serial.toNat = (tagWord r).toNat % 2 ^ 38 := by
  rw [fieldsImage_serial, hm]
  exact serialField_toNat (tagWord r)

theorem fieldsImage_serialMode : (fieldsImage c r f).serialMode = serialModeBit c.serialMode := rfl

end

/-- Settles O24: the response is the image of a format's fields, whose serial number and mode bit the
serial mode selects. -/
theorem serialModeSelectsTheSerial : Obligations.SerialModeSelectsTheSerial := by
  intro s r R runs hv ok
  obtain rfl := eq_decodeImage_of_accepted runs hv
  obtain ⟨f, image⟩ := decodeImage_of_status_ok ok
  rw [image, fieldsImage_serialMode]
  exact ⟨fun hm => ⟨fieldsImage_serial_toNat_parity r f hm, congrArg serialModeBit hm⟩,
    fun hm => ⟨fieldsImage_serial_toNat_corrected r f hm, congrArg serialModeBit hm⟩⟩

/-! ### The digit count -/

theorem digitsFrom_succ_of_lt {k n : Nat} (fuel : Nat) (h : n < 10 ^ k) :
    digitsFrom (fuel + 1) k n = k := if_pos h

theorem digitsFrom_succ_of_not_lt {k n : Nat} (fuel : Nat) (h : ¬ n < 10 ^ k) :
    digitsFrom (fuel + 1) k n = digitsFrom fuel (k + 1) n := if_neg h

theorem digitsFrom_mem_Icc (fuel k n : Nat) : digitsFrom fuel k n ∈ Set.Icc k (k + fuel) := by
  induction fuel generalizing k with
  | zero => exact ⟨le_rfl, le_rfl⟩
  | succ fuel ih =>
    by_cases h : n < 10 ^ k
    · rw [digitsFrom_succ_of_lt fuel h]
      exact ⟨le_rfl, Nat.le_add_right _ _⟩
    · obtain ⟨lower, upper⟩ := ih (k + 1)
      rw [digitsFrom_succ_of_not_lt fuel h]
      exact ⟨by omega, by omega⟩

/-- With enough fuel the search ends at a power of ten above `n`. -/
theorem lt_pow_digitsFrom {fuel k n : Nat} (h : n < 10 ^ (k + fuel)) :
    n < 10 ^ digitsFrom fuel k n := by
  induction fuel generalizing k with
  | zero => exact h
  | succ fuel ih =>
    by_cases hk : n < 10 ^ k
    · rwa [digitsFrom_succ_of_lt fuel hk]
    · rw [digitsFrom_succ_of_not_lt fuel hk]
      exact ih (by rwa [Nat.add_right_comm])

/-- The search passes no power of ten above `n`. -/
theorem digitsFrom_le {fuel k j n : Nat} (hk : k ≤ j) (h : n < 10 ^ j) : digitsFrom fuel k n ≤ j := by
  induction fuel generalizing k with
  | zero => exact hk
  | succ fuel ih =>
    by_cases hn : n < 10 ^ k
    · rwa [digitsFrom_succ_of_lt fuel hn]
    · have further : k ≠ j := by rintro rfl; exact hn h
      rw [digitsFrom_succ_of_not_lt fuel hn]
      exact ih (by omega)

theorem one_le_digitCount (n : Nat) : 1 ≤ digitCount n := (digitsFrom_mem_Icc 11 1 n).1

theorem digitCount_le_twelve (n : Nat) : digitCount n ≤ 12 := (digitsFrom_mem_Icc 11 1 n).2

/-- Twelve digits are enough for every serial number. -/
theorem lt_pow_digitCount {n : Nat} (h : n < 2 ^ 38) : n < 10 ^ digitCount n :=
  lt_pow_digitsFrom (h.trans (by norm_num))

theorem digitCount_le {n k : Nat} (hk : 1 ≤ k) (h : n < 10 ^ k) : digitCount n ≤ k :=
  digitsFrom_le hk h

theorem digitCount_ofNat_toNat (n : Nat) : (BitVec.ofNat 4 (digitCount n)).toNat = digitCount n := by
  have := digitCount_le_twelve n
  exact Nat.mod_eq_of_lt (by omega)

/-! ### The digit lanes -/

theorem decimalDigit_le_nine (n i : Nat) : decimalDigit n i ≤ 9 :=
  Nat.le_of_lt_succ (Nat.mod_lt _ (by omega))

/-- The low `k` decimal digits of a number, weighted from the most significant one down, sum to its
remainder. -/
theorem sum_decimalDigit_eq_mod_ten_pow (n k : Nat) :
    ((List.range k).map fun i => decimalDigit n (k - 1 - i) * 10 ^ (k - 1 - i)).sum = n % 10 ^ k := by
  induction k with
  | zero => simp [Nat.mod_one]
  | succ k ih =>
    have shift : ∀ i, k + 1 - 1 - (i + 1) = k - 1 - i := by omega
    simp only [List.range_succ_eq_map, List.map_cons, List.map_map, List.sum_cons,
      Function.comp_def, Nat.succ_eq_add_one, shift, ih]
    rw [Nat.mod_pow_succ, Nat.mul_comm (10 ^ k), Nat.add_comm]
    rfl

section
variable {n i : Nat}

theorem decimalLanes_getElem (h : i < 12) :
    (decimalLanes n)[i] =
      if i < digitCount n then BitVec.ofNat 4 (decimalDigit n (digitCount n - 1 - i)) else 0#4 :=
  Vector.getElem_ofFn h

/-- 44_serial_number.md R140: lane `i` of the first `k` holds digit `k - 1 - i`. -/
theorem decimalLanes_toNat_of_lt (h : i < 12) (hi : i < digitCount n) :
    (decimalLanes n)[i].toNat = decimalDigit n (digitCount n - 1 - i) := by
  have small := decimalDigit_le_nine n (digitCount n - 1 - i)
  rw [decimalLanes_getElem h, if_pos hi]
  exact Nat.mod_eq_of_lt (by omega)

theorem decimalLanes_of_le (h : i < 12) (hi : digitCount n ≤ i) : (decimalLanes n)[i] = 0 :=
  (decimalLanes_getElem h).trans (if_neg (Nat.not_lt.mpr hi))

theorem decimalLanes_toNat_le_nine (h : i < 12) : (decimalLanes n)[i].toNat ≤ 9 := by
  rcases Nat.lt_or_ge i (digitCount n) with hi | hi
  · rw [decimalLanes_toNat_of_lt h hi]
    exact decimalDigit_le_nine n _
  · rw [decimalLanes_of_le h hi]
    exact Nat.zero_le 9

theorem decimalLanes_getD_toNat (hi : i < digitCount n) :
    ((decimalLanes n).toList.getD i 0).toNat = decimalDigit n (digitCount n - 1 - i) := by
  have h : i < 12 := hi.trans_le (digitCount_le_twelve n)
  rw [← decimalLanes_toNat_of_lt h hi]
  simp [List.getD_eq_getElem?_getD, h]

end

/-- The lanes weigh up to the number they render. -/
theorem sum_decimalLanes {n : Nat} (h : n < 2 ^ 38) :
    ((List.range (digitCount n)).map fun i =>
      ((decimalLanes n).toList.getD i 0).toNat * 10 ^ (digitCount n - 1 - i)).sum = n := by
  have digits := sum_decimalDigit_eq_mod_ten_pow n (digitCount n)
  rw [Nat.mod_eq_of_lt (lt_pow_digitCount h)] at digits
  refine (congrArg List.sum (List.map_congr_left fun i hi => ?lane)).trans digits
  case lane => rw [decimalLanes_getD_toNat (List.mem_range.mp hi)]

/-- The rendering has no leading zero, 0 itself apart: were the first digit 0, one digit fewer would
do. -/
theorem eq_zero_of_decimalLanes_zero {n : Nat} (h : n < 2 ^ 38) (lane : (decimalLanes n)[0] = 0) :
    n = 0 := by
  have positive := one_le_digitCount n
  have pow : 10 ^ digitCount n = 10 ^ (digitCount n - 1) * 10 := by
    rw [← pow_succ, Nat.sub_add_cancel positive]
  have below : n / 10 ^ (digitCount n - 1) < 10 :=
    Nat.div_lt_of_lt_mul (pow ▸ lt_pow_digitCount h)
  have digit : decimalDigit n (digitCount n - 1) = 0 := by
    rw [← Nat.sub_zero (digitCount n - 1), ← decimalLanes_toNat_of_lt (by omega) positive, lane]
    rfl
  have shorter : n < 10 ^ (digitCount n - 1) := by
    rw [decimalDigit, Nat.mod_eq_of_lt below] at digit
    exact (Nat.div_eq_zero_iff_lt (by positivity)).mp digit
  have single : digitCount n - 1 = 0 := by
    by_contra more
    have := digitCount_le (by omega) shorter
    omega
  rw [single, pow_zero] at shorter
  omega

/-- 44_serial_number.md R140: the string is the codes of lanes 0 to `k - 1` in order. -/
theorem decimalString_eq_map_lanes (n : Nat) :
    decimalString n =
      ((decimalLanes n).toList.take (digitCount n)).map fun d => BitVec.ofNat 8 (0x30 + d.toNat) := by
  have twelve := digitCount_le_twelve n
  refine List.ext_getElem (by simp [decimalString, twelve]) fun i hi _ => ?_
  have inCount : i < digitCount n := by simpa [decimalString] using hi
  have inLanes : i < 12 := by omega
  simp [decimalString, decimalLanes_toNat_of_lt inLanes inCount]

/-- Settles O26: the digit count is the result of the search for the least power of ten above `n`, the
lanes hold the digits, and the rest follows from the sum of the digits. -/
theorem digitLanesRenderTheSerial : Obligations.DigitLanesRenderTheSerial := by
  refine ⟨fun c f filter cp ir v => ⟨rfl, digitCount_ofNat_toNat v.toNat⟩, fun n hn => ?_⟩
  exact ⟨one_le_digitCount n, digitCount_le_twelve n, lt_pow_digitCount hn, fun k => digitCount_le,
    sum_decimalLanes hn,
    fun i h => ⟨decimalLanes_toNat_le_nine h, decimalLanes_toNat_of_lt h, decimalLanes_of_le h⟩,
    eq_zero_of_decimalLanes_zero hn, decimalString_eq_map_lanes n⟩

end Sys2Proof.Machine
end

section
/-! PROOFS. 60_exceptions.md: the conditions of each status (R153), the earliest step's error reported
(R155). -/

namespace Sys2Proof.Machine

open Sys2Proof.Claims

/-- Step 1 fails on the length or on a lane that is no hex digit (60_exceptions.md R153). -/
theorem not_isTag_iff (r : Request) :
    ¬ r.isTag = true ↔ r.len ≠ 24 ∨ ∃ i : Fin 24, isHex r.ch[i] = false := by
  rw [isTag_iff, not_and_or, not_forall]
  simp only [Bool.not_eq_true]
  rfl

/-- Step 5 fails on the values that are none of the seven keys (42_header_filter_partition.md R87). -/
theorem ptable_eq_none_iff (p : Byte) :
    ptable p = none ↔ p.toNat ∉ [0, 4, 8, 12, 16, 20, 24] := by
  revert p; decide

theorem decodeImage_of_not_isTag {c : Config} {r : Request} (ht : ¬ r.isTag = true) :
    decodeImage c r = errorImage c .malformedTag := by
  rw [decodeImage, decodeSteps_of_not_isTag ht, imageOf]

@[simp] theorem errorImage_status (c : Config) (e : DecodeError) :
    (errorImage c e).status = errorStatus e := rfl

@[simp] theorem errorImage_errValue (c : Config) (e : DecodeError) :
    (errorImage c e).errValue = errorPayload e := rfl

@[simp] theorem fieldsImage_status (c : Config) (r : Request) (f : Format) :
    (fieldsImage c r f).status = 0 := rfl

/-- Settles O29: the response is the image of the eight steps; along their four ends, in step order, it
has the status of the test that failed first, and the later conditions are excluded by the earlier ones. -/
theorem statusFollowsTheStepOrder : Obligations.StatusFollowsTheStepOrder := by
  intro s r hv
  refine ⟨decodeImage s.config r, machineRunsTheEightSteps s r hv, ?_⟩
  rw [← not_isTag_iff, ← ptable_eq_none_iff]
  by_cases ht : r.isTag = true
  · by_cases hh : (tagBytes r)[0] = 48#8
    · cases hp : ptable ((tagBytes r)[1] &&& s.config.pmask.mask) with
      | none => simp [decodeImage_of_ptable_none ht hh hp, errorStatus, errorPayload, ht, hh]
      | some f => simp [decodeImage_of_ptable_some ht hh hp, ht, hh]
    · simp [decodeImage_of_header_ne ht hh, errorStatus, errorPayload, ht, hh]
  · simp [decodeImage_of_not_isTag ht, errorStatus, errorPayload, ht]

end Sys2Proof.Machine
end

section
/-! PROOFS. 70_reset_and_hazards.md: what a reset does, and the decode that follows one. -/

namespace Sys2Proof.Machine

/-- 70_reset_and_hazards.md R170: the host's reset is applied whatever waits at the port. -/
theorem step_reset {s : State} {rest : List HostOp} (ho : s.hostOps = .reset :: rest) :
    step s = .next (applyReset (withHostOps rest s)) := by
  simp [step, hostStep, ho]

/-- A run goes on from the state its first step answers. -/
theorem run_succ_of_step {s t : State} (h : step s = .next t) (k : Nat) :
    core.run (k + 1) s = core.run k t := by
  have first : core.step s = .next t := h
  simp only [Host.Core.run, first]

/-- Settles O38: the step is the reset, which sets the fields as R170 says. -/
theorem resetClearsRespValid : Obligations.ResetClearsRespValid := by
  intro s rest ho
  exact ⟨applyReset (withHostOps rest s), step_reset ho, rfl, rfl, rfl, rfl, rfl⟩

/-- Settles O39: the reset leaves an idle state of the same configuration, so both runs end with a SUBMIT
that is accepted and writes the image of the request's decode. -/
theorem resetDoesNotChangeLaterResponses : Obligations.ResetDoesNotChangeLaterResponses := by
  intro s s' r rest ho hc ho' hp' hv'
  obtain ⟨u, reset, hv, hp, hops, config, -⟩ := resetClearsRespValid s (.submit r :: rest) ho
  obtain ⟨accept, -⟩ := submitIsAcceptedOrWaits u r rest hops hp
  obtain ⟨accept', -⟩ := submitIsAcceptedOrWaits s' r rest ho' hp'
  have run := (run_succ_of_step reset 1).trans (run_succ_of_step (accept hv) 0)
  refine ⟨_, _, run, accept' hv', rfl, rfl, ?same, ?image⟩
  case same => exact congrArg (decodeImage · r) (config.trans hc.symm)
  case image => exact congrArg (decodeImage · r) config

end Sys2Proof.Machine
end

section
/-! PROOFS. 30_encoding.md sections 1, 2 and 4: the layouts of the rows, and the round trips between
requests and instructions. -/

namespace Sys2Proof

open Sys2Proof.Machine Sys2Proof.Claims

/-! ### Words as their reads -/

theorem append_eq_append_iff {v w : Nat} {x x' : BitVec v} {y y' : BitVec w} :
    x ++ y = x' ++ y' ↔ x = x' ∧ y = y' := by
  refine ⟨fun h => ⟨?left, ?right⟩, ?append⟩
  case left =>
    simpa only [BitVec.extractLsb'_append_eq_left] using congrArg (BitVec.extractLsb' w v) h
  case right =>
    simpa only [BitVec.extractLsb'_append_eq_right] using congrArg (BitVec.extractLsb' 0 w) h
  case append =>
    rintro ⟨rfl, rfl⟩
    rfl

/-- Two reads that follow one another are one read. -/
theorem readBits_append (t : TagWord) {off v mid w : Nat} (h : off + (v + w) ≤ 96)
    (hmid : off + v = mid) :
    readBits t off v (by omega) ++ readBits t mid w (by omega) = readBits t off (v + w) h := by
  subst hmid
  have last : 96 - (off + v) - w = 96 - off - (v + w) := by omega
  have next : 96 - off - v = 96 - off - (v + w) + w := by omega
  rw [readBits, readBits, readBits, last]
  exact BitVec.extractLsb'_append_extractLsb'_eq_extractLsb' next

/-- The read of the whole stream is the word. -/
theorem readBits_whole (t : TagWord) : readBits t 0 96 = t := BitVec.extractLsb'_eq_self

/-- What is appended to give a read is the two parts of it. -/
theorem append_eq_readBits_iff (t : TagWord) {off v mid w : Nat} {x : BitVec v} {y : BitVec w}
    (h : off + (v + w) ≤ 96) (hmid : off + v = mid) :
    x ++ y = readBits t off (v + w) h ↔
      x = readBits t off v (by omega) ∧ readBits t mid w (by omega) = y := by
  rw [← readBits_append t h hmid, append_eq_append_iff, eq_comm (a := y)]

/-- 42_header_filter_partition.md R80: a word is its header and the 88 bits after it. -/
theorem header_append_eq_iff {h : Byte} {rest : BitVec 88} {t : TagWord} :
    h ++ rest = t ↔ byteAt t 0 = h ∧ readBits t 8 88 = rest := by
  conv_lhs => rw [← readBits_whole t]
  rw [append_eq_readBits_iff t (by omega) rfl, eq_comm (a := h)]
  rfl

/-- A word is its bytes 0 and 1 and the 80 bits after them. -/
theorem twoBytes_append_eq_iff {h p : Byte} {rest : BitVec 80} {t : TagWord} :
    h ++ p ++ rest = t ↔ byteAt t 0 = h ∧ byteAt t 1 = p ∧ readBits t 16 80 = rest := by
  conv_lhs => rw [← readBits_whole t]
  rw [append_eq_readBits_iff t (by omega) rfl, append_eq_readBits_iff t (by omega) rfl,
    eq_comm (a := h), and_assoc]
  rfl

/-- 30_encoding.md R49: a word is its header, filter and partition bits and the 82 bits after them. -/
theorem partition_append_eq_iff {h : Byte} {filter p : BitVec 3} {rest : BitVec 82} {t : TagWord} :
    h ++ filter ++ p ++ rest = t ↔
      byteAt t 0 = h ∧ readBits t 8 3 = filter ∧ readBits t 11 3 = p ∧ readBits t 14 82 = rest := by
  conv_lhs => rw [← readBits_whole t]
  rw [append_eq_readBits_iff t (by omega) rfl, append_eq_readBits_iff t (by omega) rfl,
    append_eq_readBits_iff t (by omega) rfl, eq_comm (a := h), and_assoc, and_assoc]
  rfl

/-! ### The layout of a format -/

/-- The partition bits of 30_encoding.md R50. -/
def partitionBits (f : Format) : BitVec 3 := BitVec.ofNat 3 (printedKey f / 4)

/-- The pattern of 30_encoding.md R50, for any format. -/
def layout (f : Format) (filter : BitVec 3) (cp : BitVec f.cpw) (ir : BitVec f.irw)
    (ser : BitVec 38) : TagWord :=
  (headerSgtin96 ++ filter ++ partitionBits f ++ cp ++ ir ++ ser).cast
    (by have := cpw_add_irw f; omega)

/-- The instruction of a format with these fields. -/
def Instr.ofFields : (f : Format) → BitVec 3 → BitVec f.cpw → BitVec f.irw → BitVec 38 → Instr
  | .p0, filter, cp, ir, ser => .p0 filter cp ir ser
  | .p4, filter, cp, ir, ser => .p4 filter cp ir ser
  | .p8, filter, cp, ir, ser => .p8 filter cp ir ser
  | .p12, filter, cp, ir, ser => .p12 filter cp ir ser
  | .p16, filter, cp, ir, ser => .p16 filter cp ir ser
  | .p20, filter, cp, ir, ser => .p20 filter cp ir ser
  | .p24, filter, cp, ir, ser => .p24 filter cp ir ser

section
variable {f : Format} {filter : BitVec 3} {cp : BitVec f.cpw} {ir : BitVec f.irw} {ser : BitVec 38}

/-- 43_field_extraction.md R104: a word has the layout of a format exactly when the reads of its fields,
which end at 58, give them. -/
theorem layout_eq_iff {t : TagWord} :
    layout f filter cp ir ser = t ↔
      byteAt t 0 = headerSgtin96 ∧ readBits t 8 3 = filter ∧ readBits t 11 3 = partitionBits f ∧
      readBits t 14 f.cpw (cp_inside f) = cp ∧
      readBits t (14 + f.cpw) f.irw (ir_inside f) = ir ∧ readBits t 58 38 = ser := by
  have widths := cpw_add_irw f
  have fieldsEnd : 0 + (8 + 3 + 3 + f.cpw + f.irw) = 58 := by omega
  have cpEnd : 0 + (8 + 3 + 3 + f.cpw) = 14 + f.cpw := by omega
  have whole : ∀ n (x : BitVec n) (hn : n = 96), x.cast hn = t ↔ x = readBits t 0 n (by omega) := by
    rintro _ x rfl
    rw [readBits_whole]
    rfl
  rw [layout, whole, append_eq_readBits_iff t (by omega) fieldsEnd,
    append_eq_readBits_iff t (by omega) cpEnd, append_eq_readBits_iff t (by omega) rfl,
    append_eq_readBits_iff t (by omega) rfl, append_eq_readBits_iff t (by omega) rfl,
    eq_comm (a := headerSgtin96)]
  simp only [and_assoc]
  rfl

theorem encode_ofFields :
    encode (.ofFields f filter cp ir ser) = textOf (layout f filter cp ir ser) := by
  cases f <;> rfl

/-- 42_header_filter_partition.md R90: a format is a row under the masks that keep its key. -/
theorem wf_ofFields_iff (c : Config) :
    (Instr.ofFields f filter cp ir ser).wf c = true ↔ f.key &&& c.pmask.mask = f.key := by
  obtain ⟨mask, _⟩ := c
  cases f <;> cases mask <;> simp [Instr.ofFields, Instr.wf, Format.key, PMask.mask]

end

theorem decodeFormat_eq_ofFields (t : TagWord) (f : Format) :
    decodeFormat t f = .ofFields f (readBits t 8 3) (readBits t 14 f.cpw (cp_inside f))
      (readBits t (14 + f.cpw) f.irw (ir_inside f)) (readBits t 58 38) := by
  cases f <;> rfl

/-! ### Byte 1 under the masks -/

/-- Byte 1 is the filter bits, the partition bits and the first two bits of `cp`. -/
theorem byteAt_one_eq_append (t : TagWord) :
    byteAt t 1 = readBits t 8 3 ++ readBits t 11 3 ++ readBits t 14 2 := by
  rw [readBits_append t (by omega) rfl, readBits_append t (by omega) rfl]
  rfl

theorem byteAt_one_and_mask_x1C (t : TagWord) :
    byteAt t 1 &&& PMask.x1C.mask = 0#3 ++ readBits t 11 3 ++ 0#2 := by
  rw [byteAt_one_eq_append, append_and_mask_x1C]

/-- Neither mask keeps a bit of a byte that `PMASK = 0x1C` drops. -/
theorem and_mask_eq_and_x1C_and_mask (b : Byte) (m : PMask) :
    b &&& m.mask = b &&& PMask.x1C.mask &&& m.mask := by
  have weaker : PMask.x1C.mask &&& m.mask = m.mask := by cases m <;> rfl
  rw [BitVec.and_assoc, weaker]

/-- 42_header_filter_partition.md R86: the masked value is the key of a format exactly when the
partition bits are the format's. -/
theorem byteAt_one_and_mask_eq_key_iff (t : TagWord) (f : Format) :
    byteAt t 1 &&& PMask.x1C.mask = f.key ↔ readBits t 11 3 = partitionBits f := by
  rw [byteAt_one_and_mask_x1C, ← partitionBits_eq_key, append_eq_append_iff, append_eq_append_iff,
    ← partitionBits]
  simp only [true_and, and_true]

/-- 42_header_filter_partition.md R89: it is 28 exactly when the partition bits are 111. -/
theorem byteAt_one_and_mask_eq_28_iff (t : TagWord) :
    byteAt t 1 &&& PMask.x1C.mask = 28#8 ↔ readBits t 11 3 = 7#3 := by
  have bits : 28#8 = 0#3 ++ 7#3 ++ 0#2 := rfl
  rw [byteAt_one_and_mask_x1C, bits, append_eq_append_iff, append_eq_append_iff]
  simp only [true_and, and_true]

theorem ptable_mask_x1C_eq_none_iff (b : Byte) :
    ptable (b &&& PMask.x1C.mask) = none ↔ b &&& PMask.x1C.mask = 28#8 :=
  ⟨masked_eq_28_of_ptable_none .x1C b, fun h => by rw [h]; rfl⟩

/-! ### The row of a word -/

section
variable {c : Config} {t : TagWord}

theorem decodeTag_of_header_ne (hh : byteAt t 0 ≠ headerSgtin96) :
    decodeTag c t = .unsupportedHeader (byteAt t 0) (readBits t 8 88) := if_pos hh

theorem decodeTag_of_ptable_none (hh : byteAt t 0 = headerSgtin96)
    (hp : ptable (byteAt t 1 &&& c.pmask.mask) = none) :
    decodeTag c t = .invalidPartition (readBits t 8 3) (readBits t 14 82) := by
  simp [decodeTag, hh, hp]

theorem decodeTag_of_ptable_some {f : Format} (hh : byteAt t 0 = headerSgtin96)
    (hp : ptable (byteAt t 1 &&& c.pmask.mask) = some f) : decodeTag c t = decodeFormat t f := by
  simp [decodeTag, hh, hp]

end

/-- The three ways a word is decoded, each with the tests that choose it. -/
theorem decodeTag_cases (c : Config) (t : TagWord) :
    (byteAt t 0 ≠ headerSgtin96 ∧
      decodeTag c t = .unsupportedHeader (byteAt t 0) (readBits t 8 88)) ∨
    (byteAt t 0 = headerSgtin96 ∧ ptable (byteAt t 1 &&& c.pmask.mask) = none ∧
      decodeTag c t = .invalidPartition (readBits t 8 3) (readBits t 14 82)) ∨
    (∃ f, byteAt t 0 = headerSgtin96 ∧ ptable (byteAt t 1 &&& c.pmask.mask) = some f ∧
      decodeTag c t = decodeFormat t f) := by
  by_cases hh : byteAt t 0 = headerSgtin96
  · cases hp : ptable (byteAt t 1 &&& c.pmask.mask) with
    | none => exact .inr (.inl ⟨hh, rfl, decodeTag_of_ptable_none hh hp⟩)
    | some f => exact .inr (.inr ⟨f, hh, rfl, decodeTag_of_ptable_some hh hp⟩)
  · exact .inl ⟨hh, decodeTag_of_header_ne hh⟩

/-! ### From an instruction to its words and back -/

section
variable {c : Config}

/-- The round trip of the seven formats: the layout is a tag under the row's mask, with the fields where
the decoder reads them. -/
theorem decode_encode_ofFields (f : Format) (filter : BitVec 3) (cp : BitVec f.cpw)
    (ir : BitVec f.irw) (ser : BitVec 38) (h : (Instr.ofFields f filter cp ir ser).wf c = true) :
    decode c (encode (.ofFields f filter cp ir ser)) = .ofFields f filter cp ir ser := by
  rw [wf_ofFields_iff] at h
  rw [encode_ofFields, decode_textOf]
  generalize word : layout f filter cp ir ser = t
  obtain ⟨header, rfl, partition, rfl, rfl, rfl⟩ := layout_eq_iff.1 word
  have masked : byteAt t 1 &&& c.pmask.mask = f.key := by
    rw [and_mask_eq_and_x1C_and_mask, (byteAt_one_and_mask_eq_key_iff t f).2 partition, h]
  have row : ptable (byteAt t 1 &&& c.pmask.mask) = some f := by rw [masked, ptable_key]
  rw [decodeTag_of_ptable_some header row, decodeFormat_eq_ofFields]

theorem decode_encode_invalidPartition (filter : BitVec 3) (rest : BitVec 82) (hm : c.pmask = .x1C) :
    decode c (encode (.invalidPartition filter rest)) = .invalidPartition filter rest := by
  rw [encode, decode_textOf]
  generalize word : (0x30#8 ++ filter ++ 0b111#3 ++ rest : TagWord) = t
  obtain ⟨header, rfl, partition, rfl⟩ := partition_append_eq_iff.1 word
  have noRow : ptable (byteAt t 1 &&& c.pmask.mask) = none := by
    rw [hm, ptable_mask_x1C_eq_none_iff, byteAt_one_and_mask_eq_28_iff, partition]
  exact decodeTag_of_ptable_none header noRow

theorem decode_encode_unsupportedHeader (h : Byte) (rest : BitVec 88) (hh : h ≠ headerSgtin96) :
    decode c (encode (.unsupportedHeader h rest)) = .unsupportedHeader h rest := by
  rw [encode, decode_textOf]
  generalize word : (h ++ rest : TagWord) = t
  obtain ⟨rfl, rfl⟩ := header_append_eq_iff.1 word
  exact decodeTag_of_header_ne hh

end

/-- Settles O1: row by row; a format's layout is read back field by field, the words of the error rows
fail the test that names them, and a string that is no tag stands for itself. -/
theorem decodeOfEncodeIsTheInstruction : Obligations.DecodeOfEncodeIsTheInstruction := by
  intro c i hwf
  cases i with
  | p0 f cp ir ser => exact decode_encode_ofFields .p0 f cp ir ser hwf
  | p4 f cp ir ser => exact decode_encode_ofFields .p4 f cp ir ser hwf
  | p8 f cp ir ser => exact decode_encode_ofFields .p8 f cp ir ser hwf
  | p12 f cp ir ser => exact decode_encode_ofFields .p12 f cp ir ser hwf
  | p16 f cp ir ser => exact decode_encode_ofFields .p16 f cp ir ser hwf
  | p20 f cp ir ser => exact decode_encode_ofFields .p20 f cp ir ser hwf
  | p24 f cp ir ser => exact decode_encode_ofFields .p24 f cp ir ser hwf
  | invalidPartition f rest => exact decode_encode_invalidPartition f rest (beq_iff_eq.1 hwf)
  | unsupportedHeader h rest => exact decode_encode_unsupportedHeader h rest (bne_iff_ne.1 hwf)
  | malformedTag req =>
    have notTag : ¬ req.isTag = true := by simpa [Instr.wf] using hwf
    exact decode_of_not_isTag notTag

/-! ### Every request is a row -/

/-- 42_header_filter_partition.md R90: only under `PMASK = 0x1C` the table lacks a masked value. -/
theorem pmask_eq_x1C_of_ptable_none {m : PMask} {b : Byte} (h : ptable (b &&& m.mask) = none) :
    m = .x1C := by
  cases m with
  | x1C => rfl
  | x18 =>
    obtain ⟨f, -, hp⟩ := ptable_mask_x18 b
    rw [hp] at h
    cases h

/-- A mask selects only keys that it keeps. -/
theorem key_and_mask_of_ptable_some {m : PMask} {b : Byte} {f : Format}
    (hp : ptable (b &&& m.mask) = some f) : f.key &&& m.mask = f.key := by
  rw [← ptable_eq_some _ _ hp, BitVec.and_assoc, BitVec.and_self]

/-- Settles O2: along the four ways a request is served, the test that chose the row is what the row's
well-formedness asks. -/
theorem decodedInstructionIsWellFormed : Obligations.DecodedInstructionIsWellFormed := by
  intro c r
  by_cases ht : r.isTag = true
  · rw [decode_of_isTag ht]
    rcases decodeTag_cases c (tagWord r) with ⟨hh, row⟩ | ⟨_, hp, row⟩ | ⟨f, _, hp, row⟩ <;> rw [row]
    · exact bne_iff_ne.2 hh
    · exact beq_iff_eq.2 (pmask_eq_x1C_of_ptable_none hp)
    · rw [decodeFormat_eq_ofFields, wf_ofFields_iff]
      exact key_and_mask_of_ptable_some hp
  · rw [decode_of_not_isTag ht]
    simpa [Instr.wf] using ht

/-- 20_memory.md section 6: the operands of a row are all the bits of the word that its tests have not
fixed. -/
theorem encode_decodeTag {c : Config} (hm : c.pmask = .x1C) (t : TagWord) :
    encode (decodeTag c t) = textOf t := by
  rcases decodeTag_cases c t with ⟨_, row⟩ | ⟨hh, hp, row⟩ | ⟨f, hh, hp, row⟩ <;> rw [row]
  · exact congrArg textOf (header_append_eq_iff.2 ⟨rfl, rfl⟩)
  · rw [hm, ptable_mask_x1C_eq_none_iff, byteAt_one_and_mask_eq_28_iff] at hp
    exact congrArg textOf (partition_append_eq_iff.2 ⟨hh, rfl, hp, rfl⟩)
  · rw [hm, ptable_eq_some_iff, byteAt_one_and_mask_eq_key_iff] at hp
    rw [decodeFormat_eq_ofFields, encode_ofFields]
    exact congrArg textOf (layout_eq_iff.2 ⟨hh, rfl, hp, rfl, rfl, rfl⟩)

/-- Settles O3: a tag is decoded by its word, and every row keeps the word. -/
theorem encodeOfDecodeIsTheTagsText : Obligations.EncodeOfDecodeIsTheTagsText := by
  intro c r hm ht
  rw [decode_of_isTag ht, encode_decodeTag hm]

/-- Settles O7: the words are evaluated. -/
theorem wordsDecodeToTheirInstructions : Obligations.WordsDecodeToTheirInstructions := by
  unfold Obligations.WordsDecodeToTheirInstructions
  decide

/-! ### The match and mask words of the table -/

/-- The mask selects byte 0 and, under `PMASK = 0x1C`, the masked value of byte 1. -/
theorem and_rowMask_eq_iff (t : TagWord) (h p : Byte) :
    t &&& rowMask = h ++ p ++ 0#80 ↔ byteAt t 0 = h ∧ byteAt t 1 &&& PMask.x1C.mask = p := by
  have byte0 : byteAt (t &&& rowMask) 0 = byteAt t 0 := by
    rw [byteAt, readBits_and, (by decide : readBits rowMask (8 * 0) 8 = BitVec.allOnes 8),
      BitVec.and_allOnes, byteAt]
  have byte1 : byteAt (t &&& rowMask) 1 = byteAt t 1 &&& PMask.x1C.mask := by
    rw [byteAt, readBits_and, (by decide : readBits rowMask (8 * 1) 8 = PMask.x1C.mask), byteAt]
  have rest : readBits (t &&& rowMask) 16 80 = 0#80 := by
    rw [readBits_and, (by decide : readBits rowMask 16 80 = 0#80), BitVec.and_zero]
  rw [eq_comm, twoBytes_append_eq_iff, byte0, byte1, rest]
  simp only [and_true]

theorem rowMatch_eq (f : Format) : rowMatch f = headerSgtin96 ++ f.key ++ 0#80 := by
  cases f <;> rfl

theorem decodeFormat_ne_invalidPartition (t : TagWord) (f : Format) (filter : BitVec 3)
    (rest : BitVec 82) : decodeFormat t f ≠ .invalidPartition filter rest := by
  cases f <;> nofun

theorem decodeFormat_ne_unsupportedHeader (t : TagWord) (f : Format) (h : Byte) (rest : BitVec 88) :
    decodeFormat t f ≠ .unsupportedHeader h rest := by
  cases f <;> nofun

/-- The format of an instruction, if it has one. -/
def Instr.format? : Instr → Option Format
  | .p0 _ _ _ _ => some .p0
  | .p4 _ _ _ _ => some .p4
  | .p8 _ _ _ _ => some .p8
  | .p12 _ _ _ _ => some .p12
  | .p16 _ _ _ _ => some .p16
  | .p20 _ _ _ _ => some .p20
  | .p24 _ _ _ _ => some .p24
  | .invalidPartition _ _ => none
  | .unsupportedHeader _ _ => none
  | .malformedTag _ => none

theorem format?_decodeFormat (t : TagWord) (f : Format) :
    (decodeFormat t f).format? = some f := by cases f <;> rfl

theorem decodeFormat_inj {t : TagWord} {f g : Format} : decodeFormat t f = decodeFormat t g ↔ f = g := by
  refine ⟨fun h => ?_, congrArg _⟩
  have formats := congrArg Instr.format? h
  rwa [format?_decodeFormat, format?_decodeFormat, Option.some_inj] at formats

section
variable {c : Config} {t : TagWord}

theorem decodeTag_eq_decodeFormat_iff {f : Format} :
    decodeTag c t = decodeFormat t f ↔
      byteAt t 0 = headerSgtin96 ∧ ptable (byteAt t 1 &&& c.pmask.mask) = some f := by
  rcases decodeTag_cases c t with ⟨hh, row⟩ | ⟨hh, hp, row⟩ | ⟨g, hh, hp, row⟩
  · simp [row, hh, (decodeFormat_ne_unsupportedHeader t f _ _).symm]
  · simp [row, hh, hp, (decodeFormat_ne_invalidPartition t f _ _).symm]
  · simp [row, hh, hp, decodeFormat_inj]

theorem decodeTag_eq_invalidPartition_iff :
    decodeTag c t = .invalidPartition (readBits t 8 3) (readBits t 14 82) ↔
      byteAt t 0 = headerSgtin96 ∧ ptable (byteAt t 1 &&& c.pmask.mask) = none := by
  rcases decodeTag_cases c t with ⟨hh, row⟩ | ⟨hh, hp, row⟩ | ⟨g, hh, hp, row⟩
  · simp [row, hh]
  · simp [row, hh, hp]
  · simp [row, hp, decodeFormat_ne_invalidPartition]

theorem decodeTag_eq_unsupportedHeader_iff :
    decodeTag c t = .unsupportedHeader (byteAt t 0) (readBits t 8 88) ↔
      byteAt t 0 ≠ headerSgtin96 := by
  rcases decodeTag_cases c t with ⟨hh, row⟩ | ⟨hh, hp, row⟩ | ⟨g, hh, hp, row⟩
  · simp [row, hh]
  · simp [row, hh]
  · simp [row, hh, decodeFormat_ne_unsupportedHeader]

end

/-- The header is the top byte of the word. -/
theorem byteAt_zero_eq_iff (t : TagWord) (h : Byte) : byteAt t 0 = h ↔ t.toNat / 2 ^ 88 = h.toNat := by
  have := t.isLt
  rw [← BitVec.toNat_inj, byteAt_toNat]
  omega

/-- Settles O4: each row is chosen by byte 0 and the masked byte 1 alone, and these are what the mask
selects and the match words spell. -/
theorem matchAndMaskSelectTheRow : Obligations.MatchAndMaskSelectTheRow := by
  intro c t hm
  have word28 : 0x301C00000000000000000000#96 = headerSgtin96 ++ 28#8 ++ 0#80 := rfl
  refine ⟨fun f => ?format, ?invalid, ?unsupported⟩
  case format =>
    rw [decodeTag_eq_decodeFormat_iff, rowMatch_eq, and_rowMask_eq_iff, hm, ptable_eq_some_iff]
  case invalid =>
    rw [decodeTag_eq_invalidPartition_iff, word28, and_rowMask_eq_iff, hm,
      ptable_mask_x1C_eq_none_iff]
  case unsupported =>
    rw [decodeTag_eq_unsupportedHeader_iff, Ne, byteAt_zero_eq_iff]
    rfl

/-! ### Byte 1 and the first field -/

/-- Settles O18: both are the read of the two bits at 14, the first of `cp` and the last of byte 1. -/
theorem companyPrefixStartsInByteOne : Obligations.CompanyPrefixStartsInByteOne := by
  rintro t f w hw rfl
  have wide : 2 ≤ f.cpw := by cases f <;> decide
  have first := readBits_toNat_first t (off := 14) (v := 2) (w := f.cpw) (by omega) wide
  have last : (readBits t 14 2).toNat = (byteAt t 1).toNat % 4 :=
    readBits_toNat_rest t (off := 8) (v := 6) (w := 8) (by omega) (by omega)
  rw [← first, last]

end Sys2Proof
end

section
/-! PROOFS. 10_state.md section 6: the columns that the rows run to, what the host reads of them, and the
bits of a tag that do not reach them. -/

namespace Sys2Proof.Machine

open Sys2Proof.Claims

/-! ### The columns -/

theorem serialOf_eq_serialClosed (c : Config) (ser : BitVec 38) :
    serialOf c.serialMode (ser.setWidth 32) ser = serialClosed c ser := by
  obtain ⟨_, mode⟩ := c
  cases mode with
  | parity =>
    apply BitVec.eq_of_toNat_eq
    simp only [serialClosed, serialOf_parity_toNat, BitVec.toNat_setWidth, BitVec.toNat_ofNat]
    omega
  | corrected => rfl

/-- 43_field_extraction.md R108: the image of a success is the `OK` column, whatever the widths of the
fields that are extended to their ports. -/
theorem okImage_eq_okColumn (c : Config) (f : Format) (filter : BitVec 3) {v w : Nat}
    (cp : BitVec v) (ir : BitVec w) (ser : BitVec 38) :
    okImage c f (filterValue filter) (cp.setWidth 40) (ir.setWidth 24)
      (serialOf c.serialMode (ser.setWidth 32) ser) = okColumn c f filter cp.toNat ir.toNat ser := by
  obtain ⟨-, widths⟩ := partitionTableHasItsSevenRows
  obtain ⟨printed, -, -⟩ := widths f
  have mode : serialModeBit c.serialMode = if c.serialMode = .parity then 0 else 1 := by
    cases c.serialMode <;> rfl
  have shifted : filterValue filter = BitVec.ofNat 8 (32 * filter.toNat) := by
    rw [← filterValue_toNat, BitVec.ofNat_toNat, BitVec.setWidth_eq]
  have key : f.key = BitVec.ofNat 8 (printedKey f) := by
    rw [← key_toNat, BitVec.ofNat_toNat, BitVec.setWidth_eq]
  simp only [okImage, okColumn, serialOf_eq_serialClosed, BitVec.ofNat_toNat, mode, shifted, key,
    ← printed]
  rfl

/-- The meaning of a format, whatever the format. -/
theorem exec_ofFields (f : Format) (filter : BitVec 3) (cp : BitVec f.cpw) (ir : BitVec f.irw)
    (ser : BitVec 38) (s : State) :
    exec (.ofFields f filter cp ir ser) s =
      completeDecode f filter (cp.setWidth 40) (ir.setWidth 24) ser s := by
  cases f with
  | p0 => exact congrArg (completeDecode .p0 _ · _ _ s) (BitVec.setWidth_eq _).symm
  | p24 => exact congrArg (completeDecode .p24 _ _ · _ s) (BitVec.setWidth_eq _).symm
  | _ => rfl

theorem exec_ofFields_of_free {s : State} (hv : s.respValid = false) (f : Format)
    (filter : BitVec 3) (cp : BitVec f.cpw) (ir : BitVec f.irw) (ser : BitVec 38) :
    exec (.ofFields f filter cp ir ser) s =
      .next (accepted s (okColumn s.config f filter cp.toNat ir.toNat ser)) := by
  rw [exec_ofFields, completeDecode_eq, okImage_eq_okColumn, respond_free _ s hv]
  rfl

/-- Settles O31: the seven formats are one meaning, which writes the `OK` column. -/
theorem formatsRunToTheOkColumn : Obligations.FormatsRunToTheOkColumn := by
  intro s filter ser hv
  have runs := fun f cp ir => exec_ofFields_of_free hv f filter cp ir ser
  exact ⟨runs .p0, runs .p4, runs .p8, runs .p12, runs .p16, runs .p20, runs .p24⟩

theorem raiseError_of_free {s : State} (hv : s.respValid = false) (e : DecodeError) :
    raiseError e s = .next (accepted s (failureColumn s.config (errorStatus e) (errorPayload e))) := by
  rw [raiseError, errorImage_eq_failureColumn, respond_free _ s hv]
  rfl

/-- Settles O32: each error row raises its error, whose image is the failure column. -/
theorem errorRowsRunToTheirFailureColumn : Obligations.ErrorRowsRunToTheirFailureColumn := by
  intro s hv
  exact ⟨fun _ => raiseError_of_free hv .malformedTag,
    fun h _ => raiseError_of_free hv (.unsupportedHeader h),
    fun _ _ => raiseError_of_free hv (.invalidPartition 28)⟩

/-! ### The host's reading -/

/-- 44_serial_number.md R139: the host adds the code of `0` to a lane without overflow. -/
theorem add_code_eq_ofNat : ∀ d : Nibble, 0x30#8 + d.setWidth 8 = BitVec.ofNat 8 (0x30 + d.toNat) := by decide

theorem readResponse_errorImage (c : Config) (e : DecodeError) :
    readResponse (errorImage c e) = .error e := by
  cases e <;> rfl

theorem readResponse_okImage (c : Config) (f : Format) (filter : Byte) (cp : BitVec 40)
    (ir : BitVec 24) (serial : BitVec 38) :
    readResponse (okImage c f filter cp ir serial) =
      .ok { companyPrefix := cp, itemReference := ir, serialNumber := decimalString serial.toNat } := by
  rw [decimalString_eq_map_lanes]
  simp only [readResponse, okImage, if_true, add_code_eq_ofNat, digitCount_ofNat_toNat]

/-- Settles O28: an error's image tells its status and payload; the fields of a success are read from
the signals, and the first lanes spell the decimal string. -/
theorem hostReadsTheResultOfTheDecode : Obligations.HostReadsTheResultOfTheDecode := by
  intro c r
  rw [decodeImage]
  cases hd : decodeSteps c r with
  | error e => exact readResponse_errorImage c e
  | ok x =>
    obtain ⟨f, hp, rfl⟩ := decodeSteps_eq_ok hd
    rw [ptable_eq_some _ _ hp]
    exact readResponse_okImage c f _ _ _ _

/-! ### Bits that do not reach the response -/

/-- Words that differ only in the bits of `m` give the same reads clear of them. -/
theorem readBits_eq_of_or_eq {t t' m : TagWord} (same : t ||| m = t' ||| m) {off w : Nat}
    (h : off + w ≤ 96) (clear : readBits m off w h = 0#w) : readBits t off w h = readBits t' off w h := by
  have reads := congrArg (readBits · off w h) same
  simpa only [readBits_or, clear, BitVec.or_zero] using reads

/-- What `g` sees of the response is the same for two tags with the same header and the same partition
bits, if it is so for the fields of every format. -/
theorem decodeImage_congr {α : Type} (g : Response → α) (c : Config) {r r' : Request}
    (ht : r.isTag = true) (ht' : r'.isTag = true)
    (header : byteAt (tagWord r) 0 = byteAt (tagWord r') 0)
    (partition : readBits (tagWord r) 11 3 = readBits (tagWord r') 11 3)
    (fields : ∀ f, g (fieldsImage c r f) = g (fieldsImage c r' f)) :
    g (decodeImage c r) = g (decodeImage c r') := by
  have masked : (tagBytes r)[1] &&& c.pmask.mask = (tagBytes r')[1] &&& c.pmask.mask := by
    rw [← byteAt_tagWord, ← byteAt_tagWord, and_mask_eq_and_x1C_and_mask,
      and_mask_eq_and_x1C_and_mask (byteAt (tagWord r') 1), byteAt_one_and_mask_x1C,
      byteAt_one_and_mask_x1C, partition]
  rw [byteAt_tagWord, byteAt_tagWord] at header
  by_cases hh : (tagBytes r)[0] = headerSgtin96
  · cases hp : ptable ((tagBytes r)[1] &&& c.pmask.mask) with
    | none =>
      rw [decodeImage_of_ptable_none ht hh hp,
        decodeImage_of_ptable_none ht' (header ▸ hh) (masked ▸ hp), masked]
    | some f =>
      rw [decodeImage_of_ptable_some ht hh hp,
        decodeImage_of_ptable_some ht' (header ▸ hh) (masked ▸ hp), fields]
  · rw [decodeImage_of_header_ne ht hh, decodeImage_of_header_ne ht' (header ▸ hh), header]

/-- A response without its `dbg_filter` field. -/
def withoutFilter (R : Response) : Response := { R with dbgFilter := 0 }

theorem eq_of_withoutFilter_eq {R R' : Response} (h : withoutFilter R = withoutFilter R') :
    R' = { R with dbgFilter := R'.dbgFilter } := by
  cases R; cases R'; cases h; rfl

/-- 43_field_extraction.md R119: the filter bits reach no other field and no choice of a row. -/
theorem withoutFilter_decodeImage_eq (c : Config) {r r' : Request} (ht : r.isTag = true)
    (ht' : r'.isTag = true)
    (same : tagWord r ||| (7#96 <<< 85) = tagWord r' ||| (7#96 <<< 85)) :
    withoutFilter (decodeImage c r) = withoutFilter (decodeImage c r') := by
  refine decodeImage_congr withoutFilter c ht ht' ?header ?partition fun f => ?fields
  case header => exact readBits_eq_of_or_eq same _ (by decide)
  case partition => exact readBits_eq_of_or_eq same _ (by decide)
  case fields =>
    have hcp := readBits_eq_of_or_eq same (cp_inside f) (by cases f <;> decide)
    have hir := readBits_eq_of_or_eq same (ir_inside f) (by cases f <;> decide)
    have hser := readBits_eq_of_or_eq same (off := 58) (w := 38) (by omega) (by decide)
    simp only [withoutFilter, fieldsImage, okImage, hcp, hir, hser]

/-- Settles O20: both states hold the image of their request's decode, and the two images agree once the
filter field is left out. -/
theorem filterReachesOnlyItsDebugField : Obligations.FilterReachesOnlyItsDebugField := by
  intro s r r' ht ht' same hv
  have images := withoutFilter_decodeImage_eq s.config ht ht' same
  refine ⟨decodeImage s.config r, (decodeImage s.config r').dbgFilter,
    machineRunsTheEightSteps s r hv, ?_⟩
  rw [← eq_of_withoutFilter_eq images]
  exact machineRunsTheEightSteps s r' hv

/-- Settles O25: the bits lie in no field but the first six bits of the serial field, which the parity
serial number, the last four bytes, leaves out; so the two images are equal. -/
theorem parityModeIgnoresBitsFiftyEightToSixtyThree :
    Obligations.ParityModeIgnoresBitsFiftyEightToSixtyThree := by
  intro s r r' hm ht ht' same
  have images : decodeImage s.config r = decodeImage s.config r' := by
    refine decodeImage_congr id s.config ht ht' ?header ?partition fun f => ?fields
    case header => exact readBits_eq_of_or_eq same _ (by decide)
    case partition => exact readBits_eq_of_or_eq same _ (by decide)
    case fields =>
      have hfilter := readBits_eq_of_or_eq same (off := 8) (w := 3) (by omega) (by decide)
      have hcp := readBits_eq_of_or_eq same (cp_inside f) (by cases f <;> decide)
      have hir := readBits_eq_of_or_eq same (ir_inside f) (by cases f <;> decide)
      have h32 := readBits_eq_of_or_eq same (off := 64) (w := 32) (by omega) (by decide)
      simp only [id, fieldsImage, serialField_setWidth_eq_readBits, hm, serialOf, hfilter, hcp, hir, h32]
  rw [exec_decode, exec_decode, images]

end Sys2Proof.Machine
end

section
/-! PROOFS. 40_decode_top.md section 3 and 10_state.md section 6: what a step does to the response
register and to the host's copies, said once, and the invariants and runs that follow. -/

namespace Sys2Proof.Machine

open Sys2Proof.Claims

/-! ### The frame of an instruction -/

/-- Settles O33: every meaning is the writing of one response, which leaves the state as it is while a
response is held and otherwise writes the register and frees the port. -/
theorem instructionsChangeOnlyTheResponseRegister :
    Obligations.InstructionsChangeOnlyTheResponseRegister := by
  intro i s t h
  obtain ⟨R, writes⟩ := exec_respond i s.config
  rw [writes s rfl] at h
  rcases respond_cases R s with ⟨hv, held⟩ | ⟨hv, free⟩
  · rw [held, Host.Outcome.next.injEq] at h
    subst h
    simp [hv]
  · rw [free, Host.Outcome.next.injEq] at h
    subst h
    simp [hv]

/-! ### Single steps -/

/-- A request that waits is run once no response is held, unless the host's reset comes first (log 7). -/
theorem step_of_ready {s : State} {r : Request} (hp : s.presented = some r)
    (hv : s.respValid = false) (noReset : ∀ rest, s.hostOps ≠ .reset :: rest) :
    step s = exec (decode s.config r) s := by
  have hready : ready s = true := (ready_eq_true s).2 ⟨r, hp, hv⟩
  unfold step
  split
  · next rest ho => exact absurd ho (noReset rest)
  · rw [if_pos hready, serve_some s r hp]

/-- That step writes the image of the waiting request's decode. -/
theorem step_waiting {s : State} {r : Request} (hp : s.presented = some r)
    (hv : s.respValid = false) (noReset : ∀ rest, s.hostOps ≠ .reset :: rest) :
    step s = .next (accepted s (decodeImage s.config r)) :=
  (step_of_ready hp hv noReset).trans (machineRunsTheEightSteps s r hv)

/-- Settles O34: a ready request is served; a SUBMIT at a free port is run in its step, and the loader
places such a SUBMIT. -/
theorem stepRunsTheDecodedInstruction : Obligations.StepRunsTheDecodedInstruction := by
  refine ⟨fun s r => step_of_ready, fun s r rest => step_submit, fun s nbits w i hc hi => ?loaded⟩
  case loaded =>
    rw [step_submit (withFetchWord_hostOps s nbits w) (withFetchWord_presented s nbits w),
      withFetchWord_config, hc]
    rw [decodeTableWord, Option.some_inj] at hi
    rw [hi]
    rfl

/-- While a response is held, a SUBMIT presents its request and nothing more. -/
theorem step_submit_of_held {s : State} {r : Request} {rest : List HostOp}
    (ho : s.hostOps = .submit r :: rest) (hv : s.respValid = true) :
    step s = .next (present r (withHostOps rest s)) := by
  obtain ⟨x, hx⟩ := present_presented (withHostOps rest s) r
  rw [step_of_not_ready (ready_of_held hv), hostStep_submit ho, serve_some _ x hx, exec_decode]
  exact respond_held _ _ (by simpa using hv)

/-- 70_reset_and_hazards.md R173: the same request again is held stable. -/
theorem present_of_same {s : State} {r : Request} (hp : s.presented = some r) : present r s = s := by
  simp [present, hp]

/-- Settles O43: presenting changes the port alone, and not even the port when the request is the one
that waits. -/
theorem presentingAgainKeepsTheHeldResponse : Obligations.PresentingAgainKeepsTheHeldResponse := by
  intro s r r' rest hp hv ho
  have steps := step_submit_of_held ho hv
  refine ⟨?same, ?other⟩
  case same =>
    rintro rfl
    have waits : (withHostOps rest s).presented = some r' := hp
    rw [steps, present_of_same waits]
    rfl
  case other =>
    obtain ⟨x, hx⟩ := present_presented (withHostOps rest s) r'
    exact ⟨_, x, steps, hx, by simp, by simpa using hv, by simp, by simp⟩

/-- Settles O37: the step of the COLLECT, which leaves the request ready, then the step that serves it. -/
theorem waitingRequestIsServedAfterCollect : Obligations.WaitingRequestIsServedAfterCollect := by
  intro s r rest hp hv ho noReset
  have collected := collectHandsOverTheResponse s rest ho hv
  rw [run_succ_of_step collected 1]
  refine run_succ_of_step (step_waiting ?waits rfl noReset) 0
  case waits => exact hp

/-! ### What a step does to the responses -/

/-- The four things a step can do to the response register and to the copies the host has received. -/
inductive ResponseEffect (s t : State) : Prop
  /-- No response is written, handed over or lost. -/
  | kept (valid : t.respValid = s.respValid) (resp : t.resp = s.resp)
      (copies : t.collected = s.collected)
  /-- A reset. -/
  | lost (op : s.hostOps.head? = some .reset) (valid : t.respValid = false)
      (copies : t.collected = s.collected)
  /-- An acceptance: the image of some request's decode is written. -/
  | written (free : s.respValid = false) (r : Request) (valid : t.respValid = true)
      (resp : t.resp = decodeImage s.config r) (copies : t.collected = s.collected)
  /-- A COLLECT. -/
  | handedOver (op : s.hostOps.head? = some .collect) (held : s.respValid = true)
      (valid : t.respValid = false) (copies : t.collected = s.collected ++ [s.resp])

/-- Running a decoded request in a state `u` that has the register, the copies and the configuration of
`s` keeps the response that is held or writes the image of the decode. -/
theorem exec_decode_effect {s u : State} (hc : u.config = s.config)
    (hvalid : u.respValid = s.respValid) (hresp : u.resp = s.resp)
    (hcopies : u.collected = s.collected) (r : Request) :
    ∃ t, exec (decode s.config r) u = .next t ∧ t.config = s.config ∧ ResponseEffect s t := by
  rw [← hc, exec_decode]
  rcases respond_cases (decodeImage u.config r) u with ⟨-, held⟩ | ⟨hv, free⟩
  · exact ⟨u, held, rfl, .kept hvalid hresp hcopies⟩
  · exact ⟨_, free, rfl, .written (hvalid ▸ hv) r rfl (congrArg (decodeImage · r) hc) hcopies⟩

theorem presented_of_not_ready {s : State} (h : ready s = false) (hv : s.respValid = false) :
    s.presented = none := by
  simpa [ready, hv] using h

/-- Every enabled step goes on with its configuration and has one of the four effects; the one that is
not enabled is a COLLECT of nothing (93_implementation_defined.md U11). -/
theorem step_effect (s : State) :
    (∃ t, step s = .next t ∧ t.config = s.config ∧ ResponseEffect s t) ∨
    (step s = .refused .collectNotEnabled ∧ s.respValid = false ∧ s.presented = none ∧
      s.hostOps.head? = some .collect) := by
  rcases step_cases s with ⟨rest, ho, reset⟩ | ⟨r, hp, hv, -, served⟩ | ⟨-, -, idle⟩ |
    ⟨r, rest, x, -, ho, -, submitted⟩ | ⟨rest, notReady, ho, collects⟩
  · exact .inl ⟨_, reset, rfl, .lost (by simp [ho]) rfl rfl⟩
  · rw [served]
    exact .inl (exec_decode_effect rfl rfl rfl rfl r)
  · exact .inl ⟨s, idle, rfl, .kept rfl rfl rfl⟩
  · rw [submitted]
    exact .inl (exec_decode_effect (by simp) (by simp) (by simp) (by simp) x)
  · have op : s.hostOps.head? = some .collect := by simp [ho]
    rw [collects]
    cases hv : s.respValid with
    | true => exact .inl ⟨_, collect_held _ hv, rfl, .handedOver op hv rfl rfl⟩
    | false => exact .inr ⟨collect_free _ hv, rfl, presented_of_not_ready notReady hv, op⟩

theorem effect_of_step {s t : State} (h : step s = .next t) :
    t.config = s.config ∧ ResponseEffect s t := by
  rcases step_effect s with ⟨u, next, effect⟩ | ⟨refused, -⟩
  · rw [h, Host.Outcome.next.injEq] at next
    exact next ▸ effect
  · rw [h] at refused
    cases refused

/-- Settles O42: the refusal is the one alternative to the four effects. -/
theorem stepStopsOnlyAtACollectOfNothing : Obligations.StepStopsOnlyAtACollectOfNothing :=
  fun s => (step_effect s).imp_left fun ⟨t, next, _⟩ => ⟨t, next⟩

/-- Settles O40: only a COLLECT adds to the copies, and it adds the response held. -/
theorem stepKeepsConfigurationAndCopies : Obligations.StepKeepsConfigurationAndCopies := by
  intro s t h
  obtain ⟨config, effect⟩ := effect_of_step h
  refine ⟨config, ?_⟩
  cases effect with
  | kept _ _ copies => exact .inl copies
  | lost _ _ copies => exact .inl copies
  | written _ _ _ _ copies => exact .inl copies
  | handedOver op held _ copies => exact .inr ⟨held, op, copies⟩

/-- Settles O41: a response is written only while none is held, and only a COLLECT or a reset clears
`RESP_VALID`. -/
theorem heldResponseIsNotOverwritten : Obligations.HeldResponseIsNotOverwritten := by
  intro s t hv h
  obtain ⟨-, effect⟩ := effect_of_step h
  cases effect with
  | kept valid resp _ => simp [valid, resp, hv]
  | lost op valid _ => simp [valid, op]
  | written free _ _ _ _ => simp [hv] at free
  | handedOver op _ valid _ => simp [valid, op]

/-! ### Invariants on responses -/

/-- Every response that is held or was handed over has the property `P` of the configuration. -/
def EveryResponse (P : Config → Response → Prop) (s : State) : Prop :=
  (s.respValid = true → P s.config s.resp) ∧ ∀ x ∈ s.collected, P s.config x

/-- What holds of the image of every decode, a step keeps of every response. -/
theorem step_keeps_everyResponse {P : Config → Response → Prop}
    (image : ∀ c r, P c (decodeImage c r)) {s t : State} (hs : EveryResponse P s)
    (h : step s = .next t) : EveryResponse P t := by
  obtain ⟨register, handed⟩ := hs
  obtain ⟨config, effect⟩ := effect_of_step h
  rw [EveryResponse, config]
  cases effect with
  | kept valid resp copies =>
    rw [valid, resp, copies]
    exact ⟨register, handed⟩
  | lost _ valid copies =>
    rw [valid, copies]
    exact ⟨nofun, handed⟩
  | written _ r _ resp copies =>
    rw [resp, copies]
    exact ⟨fun _ => image _ r, handed⟩
  | handedOver _ held valid copies =>
    rw [valid, copies]
    refine ⟨nofun, fun x hx => ?_⟩
    rcases List.mem_append.1 hx with old | new
    · exact handed x old
    · rw [List.mem_singleton.1 new]
      exact register held

/-- Settles O46: the image of a decode is the image of some request's decode. -/
theorem stepKeepsResponsesFromDecodes : Obligations.StepKeepsResponsesFromDecodes :=
  fun _ _ => step_keeps_everyResponse (P := fun c x => ∃ r, x = decodeImage c r) fun _ r => ⟨r, rfl⟩

/-! ### Legal responses -/

theorem inv_iff_everyResponse_legal (s : State) :
    s.inv = true ↔ EveryResponse (fun c x => Response.legal c x = true) s := by
  simp only [State.inv, EveryResponse, Bool.and_eq_true, Bool.or_eq_true, Bool.not_eq_true',
    List.all_eq_true, ← Bool.not_eq_true, ← imp_iff_not_or]

theorem legal_iff (c : Config) (R : Response) :
    Response.legal c R = true ↔
      R.serialMode = serialModeBit c.serialMode ∧
      ((R.status = statusOk ∧ okLegal c R = true) ∨
       R = errorImage c .malformedTag ∨
       (R = errorImage c (.unsupportedHeader R.errValue) ∧ R.errValue ≠ headerSgtin96) ∨
       (R = errorImage c (.invalidPartition 28#8) ∧ c.pmask = .x1C)) := by
  simp only [Response.legal, Bool.and_eq_true, Bool.or_eq_true, beq_iff_eq, bne_iff_ne, or_assoc]

theorem okLegal_iff (c : Config) (R : Response) :
    okLegal c R = true ↔
      R.errValue = 0#8 ∧ filterOk R.dbgFilter = true ∧
      (∃ f ∈ allFormats, f.key &&& c.pmask.mask = f.key ∧ R.dbgPartition = f.key ∧
        R.dbgCpw = BitVec.ofNat 6 f.cpw ∧ R.dbgIrw = BitVec.ofNat 5 f.irw ∧
        R.companyPrefix.toNat < 2 ^ f.cpw ∧ R.itemReference.toNat < 2 ^ f.irw) ∧
      (c.serialMode = .corrected ∨ R.serial.toNat < 2 ^ 32) ∧
      R.serialDec = decimalLanes R.serial.toNat ∧
      R.serialNdig = BitVec.ofNat 4 (digitCount R.serial.toNat) := by
  simp only [okLegal, Bool.and_eq_true, Bool.or_eq_true, beq_iff_eq, List.any_eq_true,
    decide_eq_true_eq, and_assoc]

theorem mem_allFormats (f : Format) : f ∈ allFormats := by cases f <;> decide

/-- The fields of a format the mask can select make a legal success: reads fit their widths, and the
parity serial number is four bytes. -/
theorem okLegal_fieldsImage {c : Config} (r : Request) {f : Format}
    (hf : f.key &&& c.pmask.mask = f.key) : okLegal c (fieldsImage c r f) = true := by
  have filter : filterOk (fieldsImage c r f).dbgFilter = true := filterOk_filterValue _
  have cp : (fieldsImage c r f).companyPrefix.toNat < 2 ^ f.cpw := by
    rw [fieldsImage_companyPrefix_toNat, Nat.and_two_pow_sub_one_eq_mod]
    exact Nat.mod_lt _ (by positivity)
  have ir : (fieldsImage c r f).itemReference.toNat < 2 ^ f.irw := by
    rw [fieldsImage_itemReference_toNat, Nat.and_two_pow_sub_one_eq_mod]
    exact Nat.mod_lt _ (by positivity)
  have serial : c.serialMode = .corrected ∨ (fieldsImage c r f).serial.toNat < 2 ^ 32 := by
    cases hm : c.serialMode with
    | corrected => exact .inl rfl
    | parity =>
      rw [fieldsImage_serial_toNat_parity r f hm]
      exact .inr (Nat.mod_lt _ (by positivity))
  rw [okLegal_iff]
  exact ⟨rfl, filter, ⟨f, mem_allFormats f, hf, rfl, rfl, rfl, cp, ir⟩, serial, rfl, rfl⟩

/-- Every decode ends in a legal response, along the four ways a request is served. -/
theorem legal_decodeImage (c : Config) (r : Request) : Response.legal c (decodeImage c r) = true := by
  rw [legal_iff]
  by_cases ht : r.isTag = true
  · by_cases hh : (tagBytes r)[0] = headerSgtin96
    · cases hp : ptable ((tagBytes r)[1] &&& c.pmask.mask) with
      | none =>
        rw [decodeImage_of_ptable_none ht hh hp, masked_eq_28_of_ptable_none _ _ hp]
        exact ⟨rfl, .inr (.inr (.inr ⟨rfl, pmask_eq_x1C_of_ptable_none hp⟩))⟩
      | some f =>
        rw [decodeImage_of_ptable_some ht hh hp]
        exact ⟨rfl, .inl ⟨rfl, okLegal_fieldsImage r (key_and_mask_of_ptable_some hp)⟩⟩
    · rw [decodeImage_of_header_ne ht hh]
      exact ⟨rfl, .inr (.inr (.inl ⟨rfl, hh⟩))⟩
  · rw [decodeImage_of_not_isTag ht]
    exact ⟨rfl, .inr (.inl rfl)⟩

/-- Settles O44: the image of every decode is legal, so a step keeps the responses legal. -/
theorem stepKeepsResponsesLegal : Obligations.StepKeepsResponsesLegal := by
  intro s t hs h
  rw [inv_iff_everyResponse_legal] at hs ⊢
  exact step_keeps_everyResponse legal_decodeImage hs h

/-- Settles O45: no response is held and none was handed over, so nothing is asked. -/
theorem resetStateHasLegalResponses : Obligations.ResetStateHasLegalResponses :=
  (inv_iff_everyResponse_legal _).2 ⟨nofun, nofun⟩

/-! ### Runs -/

/-- One request of a batch takes two steps: its SUBMIT is accepted and the COLLECT hands over the image
of its decode. -/
theorem run_submit_collect {s : State} {r : Request} {ops : List HostOp}
    (ho : s.hostOps = .submit r :: .collect :: ops) (hv : s.respValid = false)
    (hp : s.presented = none) (k : Nat) :
    core.run (k + 2) s = core.run k { s with
      hostOps := ops, resp := decodeImage s.config r
      collected := s.collected ++ [decodeImage s.config r] } := by
  obtain ⟨accepts, -⟩ := submitIsAcceptedOrWaits s r (.collect :: ops) ho hp
  rw [run_succ_of_step (accepts hv), run_succ_of_step (collectHandsOverTheResponse _ ops rfl rfl), ← hv]

/-- Settles O47: by induction on the requests; after the two steps of the first the machine is idle
again, with the rest of the batch to perform. -/
theorem batchIsAnsweredInOrder : Obligations.BatchIsAnsweredInOrder := by
  intro reqs rest
  induction reqs with
  | nil =>
    intro s hv hp ho
    exact ⟨s, rfl, hv, hp, ho, rfl, (List.append_nil _).symm⟩
  | cons r reqs ih =>
    intro s hv hp ho
    have first := run_submit_collect (ops := batchOps reqs ++ rest) ho hv hp (2 * reqs.length)
    obtain ⟨t, runs, valid, port, ops, config, copies⟩ := ih { s with
      hostOps := batchOps reqs ++ rest, resp := decodeImage s.config r
      collected := s.collected ++ [decodeImage s.config r] } hv hp rfl
    refine ⟨t, first.trans runs, valid, port, ops, config, ?_⟩
    simpa using copies

end Sys2Proof.Machine
end
